-- ==== Sys2Proof/Word.lean ====
section
/-! DEFINITION. The word of CORE: the 8-bit byte of registers, memory cells, operands and opcodes (00_scope R7, R9). -/

namespace Sys2Proof

/-- An unsigned byte, 0 to 255; bit 0 is the least significant (00_scope R8, R9). -/
abbrev Byte := BitVec 8

end Sys2Proof
end

