-- ==== Sys2Proof/Config.lean ====
section
/-! DEFINITION. What an implementation fixes: the fixed values and the two parameters of 00_scope R7, with the reset
values the spec leaves unspecified. -/

namespace Sys2Proof

/-- `SP_INIT`: the stack pointer of an empty stack, and R7's reset value (00_scope R7). -/
def spInit : Byte := 244

/-- The parameter `CALL_TARGET_MODE` (00_scope R7, 42_handlers R125, 92_eei_decisions D2). -/
inductive CallTargetMode where
  /-- `pc <- x[a]`: the spec's default. -/
  | direct
  /-- `pc <- x[M[a]]`, with `M[a]` read after the push: what the reference software does. -/
  | referenceIndirect
  deriving DecidableEq, Repr

/-- What a reset takes as arguments: the two PARAMETER rows of 00_scope R7, and the two fields of the fault record that
70_reset R180 leaves unspecified at reset (93_implementation_defined U11). -/
structure Config where
  /-- `CALL_TARGET_MODE`. -/
  callTargetMode : CallTargetMode
  /-- `REG_RESET`: the reset values of R0 to R6 (10_state R24, D13). -/
  regReset : Vector Byte 7
  /-- What `fault.pc`, an integer 0 to 256, holds before any fault. -/
  faultPcReset : Fin 257
  /-- What `fault.opcode` holds before any fault. -/
  faultOpcodeReset : Option Byte
  deriving DecidableEq, Repr

/-- The parameters of `State.reset`. The mode is the spec's default (D2). DESIGN CHOICE: R0 to R6 zero, `fault.pc` zero,
`fault.opcode` NONE (notes/assumptions 2, 3, 4). Unsafe: a claim may lean on them, so claims are stated over every `Config`. -/
def Config.standard : Config where
  callTargetMode := .direct
  regReset := Vector.replicate 7 0
  faultPcReset := 0
  faultOpcodeReset := none

end Sys2Proof
end

