-- ==== Sys2Proof/Machine/State.lean ====
section
/-! DEFINITION. The state of CORE and its memory (10_state R20), its reset (70_reset R180), and the reasons a step can stop. -/

namespace Sys2Proof.Machine

/-- The run status (10_state R34). -/
inductive Status where
  | running
  | halted
  | faulted
  deriving DecidableEq, Repr

/-- `fault.cause` (10_state R35, 60_exceptions R151). -/
inductive FaultCause where
  | none
  | unsupportedOperation
  | outOfBoundsAccess
  | emptyStackUnderflow
  deriving DecidableEq, Repr

/-- The fault record (10_state R35). While `cause` is NONE the other two fields are unspecified and nothing reads them. -/
structure FaultRecord where
  cause : FaultCause
  /-- The address of the faulting instruction, an integer 0 to 256. -/
  pc : Nat
  /-- Its opcode byte, or NONE where the opcode fetch itself faulted. -/
  opcode : Option Byte
  deriving DecidableEq, Repr

/-- Memory as (address, byte) pairs. Canonical form: addresses strictly rising and below 256, no byte equal to 0, which is
what an unlisted address reads as (20_memory R40, R44; `Memory.wf` in Machine/Memory.lean). -/
abbrev Memory := List Host.Cell

/-- The state vector of 10_state R20, and the parameter CALL_TARGET_MODE that the step takes. -/
structure State where
  /-- `x[0]` to `x[7]` (10_state R21). -/
  regs : Vector Byte 8
  /-- The program counter, 0 to 256, with no wrap (10_state R26). -/
  pc : Nat
  /-- The stack pointer, separate from R7 (10_state R28). -/
  sp : Byte
  /-- The flags register `FL` (10_state R31). -/
  fl : Byte
  status : Status
  fault : FaultRecord
  /-- The output channel, oldest byte first (10_state R36). -/
  out : List Byte
  /-- `M[0..255]` (20_memory R40). -/
  mem : Memory
  /-- The model's own field: the parameter CALL_TARGET_MODE (00_scope R7). No step changes it (notes/assumptions 4). -/
  callTargetMode : CallTargetMode
  deriving DecidableEq, Repr

/-- Reset, for every value of the parameters and of what reset leaves unspecified (70_reset R180). -/
def State.resetWith (c : Config) : State where
  regs := c.regReset.push spInit
  pc := 0
  sp := spInit
  fl := 0
  status := .running
  fault := ⟨.none, c.faultPcReset, c.faultOpcodeReset⟩
  out := []
  mem := []
  callTargetMode := c.callTargetMode

/-- The machine right after reset, with the parameters of `Config.standard`. -/
def State.reset : State := State.resetWith Config.standard

/-- Why no step exists. Run-time faults of the spec are not here: their entry is a next state (60_exceptions R154,
notes/assumptions 1). -/
inductive Fault where
  /-- Raised by `step` in a HALTED state: it has no step (40_fetch R90). Safe: the spec gives no later state. -/
  | coreHalted
  /-- Raised by `step` in a FAULTED state: it has no step (40_fetch R90). Safe: the spec gives no later state. -/
  | coreFaulted
  deriving DecidableEq, Repr

/-- Why an instruction has no meaning. -/
inductive Refusal where
  /-- The dispatch's answer for an instruction without a meaning. No arm gives it: every instruction is modelled. Safe. -/
  | notModelled (mnemonic : String)
  deriving DecidableEq, Repr

end Sys2Proof.Machine
end

