-- ==== Sys2Proof/Machine/Flags.lean ====
section
/-! DEFINITION. The flags register: its three bits and the one computation that writes it (10_state R31, 41_alu R104). -/

namespace Sys2Proof.Machine

/-- E, bit 0: equal. -/
def flagE (fl : Byte) : Bool := fl.getLsbD 0

/-- G, bit 1: greater. -/
def flagG (fl : Byte) : Bool := fl.getLsbD 1

/-- L, bit 2: less. -/
def flagL (fl : Byte) : Bool := fl.getLsbD 2

/-- What CMP writes to the whole of FL; the comparison is unsigned (41_alu R104). -/
def compareFlags (x y : Byte) : Byte :=
  if x.toNat < y.toNat then 0x04 else if x.toNat > y.toNat then 0x02 else 0x01

end Sys2Proof.Machine
end

