-- ==== Sys2Proof/Syntax.lean ====
section
/-! DEFINITION. The instructions: one constructor per row of the opcode table (30_encoding R69). -/

namespace Sys2Proof

/-- The closed set of eleven instructions (00_scope R2). Operands are the raw bytes `a` and `b` that follow the opcode:
no value of them is reserved at decode, and an index is the whole byte (30_encoding R67, R72). -/
inductive Instr where
  /-- HLT: stop the core. -/
  | hlt
  /-- LDI: load the literal `b` into register `a`. -/
  | ldi (a b : Byte)
  /-- PRN: send register `a` to the output port. -/
  | prn (a : Byte)
  /-- PUSH: push register `a`. -/
  | push (a : Byte)
  /-- POP: pop into register `a`. -/
  | pop (a : Byte)
  /-- CALL: push the return address and jump; `a` is a register index, or an address under `reference_indirect`. -/
  | call (a : Byte)
  /-- RET: pop the return address into `pc`. -/
  | ret
  /-- ADD: register `a` becomes register `a` plus register `b`. -/
  | add (a b : Byte)
  /-- SUB: register `a` becomes register `a` minus register `b`. -/
  | sub (a b : Byte)
  /-- MUL: register `a` becomes register `a` times register `b`. -/
  | mul (a b : Byte)
  /-- CMP: compare registers `a` and `b`. -/
  | cmp (a b : Byte)
  deriving DecidableEq, Repr

end Sys2Proof
end

