-- ==== Sys2Proof/WellFormed.lean ====
section
/-! DEFINITION. Which instructions assembler text can name (30_encoding R73). The machine needs no such check: every
operand byte decodes and executes, and a register index above 7 faults when the instruction runs (R67, R72). -/

namespace Sys2Proof

/-- The operand bytes that R73 writes as a register `R0` to `R7`. CALL's is one in either mode: "`CALL Ra` still encodes
`a` as the index of `Ra`". -/
def Instr.registerOperands : Instr → List Byte
  | .hlt => []
  | .ldi a _ => [a]
  | .prn a => [a]
  | .push a => [a]
  | .pop a => [a]
  | .call a => [a]
  | .ret => []
  | .add a b => [a, b]
  | .sub a b => [a, b]
  | .mul a b => [a, b]
  | .cmp a b => [a, b]

/-- Well formed: every register operand names one of R0 to R7. An ill-formed instruction is no assembler text, but its bytes
still decode and run, so the machine and the encoding laws never ask for this (notes/assumptions 15). -/
def Instr.wellFormed (i : Instr) : Bool :=
  i.registerOperands.all fun a => decide (a.toNat ≤ 7)

end Sys2Proof
end

