-- ==== Sys2Proof/Decode.lean ====
section
/-! DEFINITION. Opcode fields, the opcode map, the decoder and the encoder (30_encoding). -/

namespace Sys2Proof

/-- `op[7:6]`: the number of operand bytes (30_encoding R62). -/
def numOperands (op : Byte) : Nat := (op.extractLsb 7 6).toNat

/-- `op[5]`: routed to the ALU (30_encoding R63). -/
def isAluOp (op : Byte) : Bool := op.getLsbD 5

/-- `op[4]`: the instruction sets `pc` itself (30_encoding R64). -/
def setsPc (op : Byte) : Bool := op.getLsbD 4

/-- `op[3:0]`: identity, with no meaning of its own (30_encoding R65). -/
def identity (op : Byte) : BitVec 4 := op.extractLsb 3 0

/-! The eleven opcode bytes, in binary as 30_encoding R69 prints them. -/

abbrev opHLT : Byte := 0b00000001
abbrev opLDI : Byte := 0b10000010
abbrev opPRN : Byte := 0b01000111
abbrev opPUSH : Byte := 0b01000101
abbrev opPOP : Byte := 0b01000110
abbrev opCALL : Byte := 0b01010000
abbrev opRET : Byte := 0b00010001
abbrev opADD : Byte := 0b10100000
abbrev opSUB : Byte := 0b10100011
abbrev opMUL : Byte := 0b10100010
/-- The spec's own decision (30_encoding R70, D1; notes/assumptions 8). -/
abbrev opCMP : Byte := 0b10100111

/-- The three formats N0, N1 and N2, each with the instruction its operand bytes make (30_encoding R66). -/
inductive Format where
  | n0 (make : Instr)
  | n1 (make : Byte → Instr)
  | n2 (make : Byte → Byte → Instr)

/-- A row of the opcode map. -/
structure OpcodeRow where
  opcode : Byte
  format : Format

/-- The opcode map: exactly these eleven rows (30_encoding R69). -/
def opcodeTable : List OpcodeRow :=
  [⟨opHLT, .n0 .hlt⟩, ⟨opLDI, .n2 .ldi⟩, ⟨opPRN, .n1 .prn⟩, ⟨opPUSH, .n1 .push⟩, ⟨opPOP, .n1 .pop⟩, ⟨opCALL, .n1 .call⟩,
   ⟨opRET, .n0 .ret⟩, ⟨opADD, .n2 .add⟩, ⟨opSUB, .n2 .sub⟩, ⟨opMUL, .n2 .mul⟩, ⟨opCMP, .n2 .cmp⟩]

/-- The row selected by the full opcode byte, compared for equality (30_encoding R65). -/
def lookup (op : Byte) : Option Format :=
  (opcodeTable.find? fun row => row.opcode == op).map (·.format)

/-- Why bytes are no instruction. -/
inductive DecodeError where
  /-- There is no opcode byte: the fetch is past the last cell (40_fetch R81). -/
  | noOpcode
  /-- The opcode is none of the eleven; no operand is looked at (40_fetch R82). -/
  | unsupported (op : Byte)
  /-- A declared operand byte lies past the last cell (40_fetch R83). -/
  | operandMissing (op : Byte)
  deriving DecidableEq, Repr

/-- Decode one instruction from the front of a run of bytes: opcode first, then exactly the operand bytes its format
declares (30_encoding R60, R66; 40_fetch R82, R83). Total; what follows the instruction is handed back. -/
def decode : List Byte → Except DecodeError (Instr × List Byte)
  | [] => .error .noOpcode
  | op :: rest =>
    match lookup op, rest with
    | none, _ => .error (.unsupported op)
    | some (.n0 i), rest => .ok (i, rest)
    | some (.n1 make), a :: rest => .ok (make a, rest)
    | some (.n1 _), [] => .error (.operandMissing op)
    | some (.n2 make), a :: b :: rest => .ok (make a b, rest)
    | some (.n2 _), _ => .error (.operandMissing op)

/-- The opcode byte of an instruction (30_encoding R69). -/
def opcode : Instr → Byte
  | .hlt => opHLT
  | .ldi _ _ => opLDI
  | .prn _ => opPRN
  | .push _ => opPUSH
  | .pop _ => opPOP
  | .call _ => opCALL
  | .ret => opRET
  | .add _ _ => opADD
  | .sub _ _ => opSUB
  | .mul _ _ => opMUL
  | .cmp _ _ => opCMP

/-- The bytes of an instruction, in increasing address order (30_encoding R66, R73; 20_memory R46). -/
def encode : Instr → List Byte
  | .hlt => [opHLT]
  | .ldi a b => [opLDI, a, b]
  | .prn a => [opPRN, a]
  | .push a => [opPUSH, a]
  | .pop a => [opPOP, a]
  | .call a => [opCALL, a]
  | .ret => [opRET]
  | .add a b => [opADD, a, b]
  | .sub a b => [opSUB, a, b]
  | .mul a b => [opMUL, a, b]
  | .cmp a b => [opCMP, a, b]

/-- The longest instruction is three bytes (30_encoding R60). -/
def maxLength : Nat := 3

/-- The bytes of an instruction whose bits are numbered as spec/opcode_table.json numbers them: byte k is bits 8k+7..8k, and
every bit from `nbits` up is 0. -/
def tableWordBytes (nbits w : Nat) : List Byte :=
  (List.range maxLength).map fun k => BitVec.ofNat 8 (w % 2 ^ nbits / 2 ^ (8 * k))

/-- The instruction the decoder reads from an instruction whose bits are `w`. -/
def decodeTableWord (nbits w : Nat) : Option Instr :=
  match decode (tableWordBytes nbits w) with
  | .ok (i, _) => some i
  | .error _ => none

end Sys2Proof
end

