-- ==== Sys2Proof/Machine/Memory.lean ====
section
/-! DEFINITION. The memory port (00_scope R13, 20_memory R42): one-byte reads and writes at an 8-bit address. An address
outside 0..255 cannot be asked for here; the checks that raise OutOfBoundsAccess come first (20_memory R43). -/

namespace Sys2Proof.Machine

/-- What the listed cells hold at key `k`; an unlisted key reads 0, the reset contents (20_memory R44). -/
def Memory.readAt : Memory → Nat → Byte
  | [], _ => 0
  | (key, v) :: rest, k => if key = k then v else Memory.readAt rest k

/-- Put a byte, not 0, before the first larger key. -/
def Memory.insertAt : Memory → Nat → Byte → Memory
  | [], k, v => [(k, v)]
  | (key, w) :: rest, k, v => if key < k then (key, w) :: Memory.insertAt rest k v else (k, v) :: (key, w) :: rest

/-- Drop the entry of key `k`, if any. -/
def Memory.eraseAt (m : Memory) (k : Nat) : Memory := m.filter fun cell => cell.1 != k

/-- `MemRead(addr, 1)` (20_memory R42). -/
def Memory.read (m : Memory) (addr : Byte) : Byte := m.readAt addr.toNat

/-- `MemWrite(addr, 1, v)` (20_memory R42), in canonical form: a 0 is what an unlisted cell reads, so it is not listed. -/
def Memory.write (m : Memory) (addr v : Byte) : Memory :=
  if v = 0 then m.eraseAt addr.toNat else (m.eraseAt addr.toNat).insertAt addr.toNat v

/-- The canonical form: keys strictly rising, each an address 0..255 (20_memory R40), no listed 0. -/
abbrev Memory.wf (m : Memory) : Prop :=
  m.Pairwise (fun c d => c.1 < d.1) ∧ ∀ c ∈ m, c.1 < 256 ∧ c.2 ≠ 0

end Sys2Proof.Machine
end

