-- ==== Sys2Proof/Machine/Ops.lean ====
section
/-! DEFINITION. The named operations of the pseudocode (00_scope R10): registers, memory, stack, output, the check line, the
raise (fault entry) and the PC sequencer. -/

namespace Sys2Proof.Machine

/-- `x[i]`. -/
def State.reg (s : State) (i : Fin 8) : Byte := s.regs[i]

/-- `x[i] <- v`. No register is hardwired or banked (10_state R21). -/
def State.setReg (s : State) (i : Fin 8) (v : Byte) : State := { s with regs := s.regs.set i v }

/-- `MemRead(addr, 1)`. -/
def State.memRead (s : State) (addr : Byte) : Byte := s.mem.read addr

/-- `MemWrite(addr, 1, v)`. -/
def State.memWrite (s : State) (addr v : Byte) : State := { s with mem := s.mem.write addr v }

/-- `SP <- v`. -/
def State.setSp (s : State) (v : Byte) : State := { s with sp := v }

/-- `FL <- v`. -/
def State.setFl (s : State) (v : Byte) : State := { s with fl := v }

/-- `pc <- target`. -/
def State.setPc (s : State) (target : Nat) : State := { s with pc := target }

/-- `Out(v)` (00_scope R14, 10_state R36). -/
def State.emit (s : State) (v : Byte) : State := { s with out := s.out ++ [v] }

/-- `status <- HALTED`. -/
def State.halt (s : State) : State := { s with status := .halted }

/-- Fault entry, `raise cause(pc = PC0, opcode)` (60_exceptions R154): precise and terminal. The fault record and the status
are written and nothing else, so `pc` stays at the faulting instruction. There is no handler, and no return (R155). -/
def raise (cause : FaultCause) (opcode : Option Byte) (s : State) : State :=
  { s with status := .faulted, fault := ⟨cause, s.pc, opcode⟩ }

/-- One `check c else raise cause(pc = PC0, opcode = op)` line, with what follows it. Every check comes before every write
(00_scope R11), so `s` is the state before the instruction. -/
def check (c : Prop) [Decidable c] (cause : FaultCause) (op : Byte) (s : State) (andThen : State) : State :=
  if c then andThen else raise cause (some op) s

/-- The PC sequencer (40_fetch R86), after an instruction with opcode `op` at `pc0` executed without a fault: it advances
`pc` past the instruction unless `sets_pc`, where the instruction has set `pc` itself. -/
def sequencer (op : Byte) (pc0 : Nat) (s : State) : State :=
  if setsPc op then s else s.setPc (pc0 + 1 + numOperands op)

/-- The address the next push writes, `SP - 1`; an address only while `SP >= 1` (42_handlers R123, R125). -/
def State.pushAddr (s : State) : Byte := s.sp - 1

/-- `SP <- SP - 1; MemWrite(SP, 1, v)` (42_handlers R123, R125). -/
def State.pushByte (s : State) (v : Byte) : State := (s.setSp s.pushAddr).memWrite s.pushAddr v

/-- The byte on top of the stack, `MemRead(SP, 1)` (42_handlers R124, R126). -/
def State.top (s : State) : Byte := s.memRead s.sp

/-- `SP <- SP + 1`: the popped cell is not cleared (42_handlers R124). -/
def State.dropTop (s : State) : State := s.setSp (s.sp + 1)

/-- `fault.cause` as a number (60_exceptions R151, D10). -/
def FaultCause.code : FaultCause → Nat
  | .none => 0
  | .unsupportedOperation => 1
  | .outOfBoundsAccess => 2
  | .emptyStackUnderflow => 3

end Sys2Proof.Machine
end

