-- ==== Sys2Proof/Machine/Operands.lean ====
section
/-! DEFINITION. The one operand form that needs a check: a register index (30_encoding R67). LDI's literal is used unchanged
(R68), and CALL's address under `reference_indirect` may be any byte (R72). -/

namespace Sys2Proof.Machine

/-- A register index is the whole operand byte, with no masking; 8 to 255 is no register (30_encoding R67). -/
def regIndex (a : Byte) : Option (Fin 8) :=
  if h : a.toNat < 8 then some ⟨a.toNat, h⟩ else none

/-- `check a <= 7 else raise OutOfBoundsAccess(pc = PC0, opcode = op)`, and the register it names for what follows. -/
def checkReg (op a : Byte) (s : State) (andThen : Fin 8 → State) : State :=
  match regIndex a with
  | some i => andThen i
  | none => raise .outOfBoundsAccess (some op) s

end Sys2Proof.Machine
end

