-- ==== Sys2Proof/Machine/Alu.lean ====
section
/-! DEFINITION. The ALU and its four instructions ADD, SUB, MUL and CMP (41_alu). -/

namespace Sys2Proof.Machine

/-- `v mod 256` as a byte: the exact integer result, reduced where the rules write `mod 256` (00_scope R9, 41_alu R106). -/
def byteOfInt (v : Int) : Byte := BitVec.ofInt 8 v

/-- A byte as the unsigned integer it is (00_scope R9). -/
def intOfByte (v : Byte) : Int := (v.toNat : Int)

/-- The operations of the ALU. -/
inductive AluOp where
  | add
  | sub
  | mul
  | cmp
  deriving DecidableEq, Repr

/-- The ALU's operation table, by the full opcode byte (40_fetch R85). -/
def aluOp (op : Byte) : Option AluOp :=
  if op = opADD then some .add
  else if op = opSUB then some .sub
  else if op = opMUL then some .mul
  else if op = opCMP then some .cmp
  else none

/-- What the selected operation writes, both registers read before any write (41_alu R100 to R104). -/
def aluWrite (o : AluOp) (i j : Fin 8) (s : State) : State :=
  match o with
  | .add => s.setReg i (byteOfInt (intOfByte (s.reg i) + intOfByte (s.reg j)))
  | .sub => s.setReg i (byteOfInt (intOfByte (s.reg i) - intOfByte (s.reg j)))
  | .mul => s.setReg i (byteOfInt (intOfByte (s.reg i) * intOfByte (s.reg j)))
  | .cmp => s.setFl (compareFlags (s.reg i) (s.reg j))

/-- `EXEC_ALU(op, a, b)` (41_alu R100) and the sequencer after it: the index checks, `a` before `b`, then the operation `op`
selects; any other opcode is unsupported (R105). -/
def execAlu (op a b : Byte) (s : State) : State :=
  checkReg op a s fun i =>
  checkReg op b s fun j =>
    match aluOp op with
    | some o => sequencer op s.pc (aluWrite o i j s)
    | none => raise .unsupportedOperation (some op) s

/-- ADD (41_alu R101). -/
def execAdd (a b : Byte) (s : State) : Host.Outcome State Fault Refusal := .next (execAlu opADD a b s)

/-- SUB (41_alu R102). -/
def execSub (a b : Byte) (s : State) : Host.Outcome State Fault Refusal := .next (execAlu opSUB a b s)

/-- MUL (41_alu R103). -/
def execMul (a b : Byte) (s : State) : Host.Outcome State Fault Refusal := .next (execAlu opMUL a b s)

/-- CMP (41_alu R104). -/
def execCmp (a b : Byte) (s : State) : Host.Outcome State Fault Refusal := .next (execAlu opCMP a b s)

end Sys2Proof.Machine
end

