-- ==== Sys2Proof/Machine/Control.lean ====
section
/-! DEFINITION. Subroutine call and return: CALL in both target modes, and RET (42_handlers section 3). -/

namespace Sys2Proof.Machine

/-- CALL's return address `PC0 + 2`, the address of the byte after its operand. -/
def State.returnAddr (s : State) : Nat := s.pc + 2

/-- The return address as the byte the push writes; CALL checks first that it fits (42_handlers R125, D8). -/
def State.returnByte (s : State) : Byte := BitVec.ofNat 8 s.returnAddr

/-- CALL with `CALL_TARGET_MODE = direct` (42_handlers R125): `a` is the index of the register that holds the target, which
is read before the push. -/
def callDirect (a : Byte) (s : State) : State :=
  checkReg opCALL a s fun i =>
    check (1 ≤ s.sp.toNat) .outOfBoundsAccess opCALL s <|
    check (s.returnAddr ≤ 255) .outOfBoundsAccess opCALL s <|
      sequencer opCALL s.pc ((s.pushByte s.returnByte).setPc (s.reg i).toNat)

/-- The byte at address `a` as the push of the return address leaves it (42_handlers R125). -/
def State.calleeIndex (s : State) (a : Byte) : Byte :=
  if a = s.pushAddr then s.returnByte else s.memRead a

/-- CALL with `CALL_TARGET_MODE = reference_indirect` (42_handlers R125): the byte stored at address `a` is the index of the
register that holds the target. -/
def callIndirect (a : Byte) (s : State) : State :=
  check (1 ≤ s.sp.toNat) .outOfBoundsAccess opCALL s <|
  check (s.returnAddr ≤ 255) .outOfBoundsAccess opCALL s <|
  checkReg opCALL (s.calleeIndex a) s fun i =>
    sequencer opCALL s.pc ((s.pushByte s.returnByte).setPc (s.reg i).toNat)

/-- CALL (42_handlers R125), in the mode the parameter fixes. -/
def execCall (a : Byte) (s : State) : Host.Outcome State Fault Refusal :=
  .next (match s.callTargetMode with
    | .direct => callDirect a s
    | .referenceIndirect => callIndirect a s)

/-- RET (42_handlers R126): `SP` goes up by exactly 1 (90_conflicts C3). -/
def execRet (s : State) : Host.Outcome State Fault Refusal :=
  .next (check (s.sp.toNat ≤ 243) .emptyStackUnderflow opRET s <|
    sequencer opRET s.pc (s.dropTop.setPc s.top.toNat))

end Sys2Proof.Machine
end

