-- ==== Sys2Proof/Machine/Data.lean ====
section
/-! DEFINITION. Halt, load immediate, print: HLT, LDI and PRN (42_handlers section 1). -/

namespace Sys2Proof.Machine

/-- HLT (42_handlers R120): the step still finishes, so `pc` advances past HLT (40_fetch R87). -/
def execHlt (s : State) : Host.Outcome State Fault Refusal :=
  .next (sequencer opHLT s.pc s.halt)

/-- LDI (42_handlers R121): the literal is written unchanged. -/
def execLdi (a b : Byte) (s : State) : Host.Outcome State Fault Refusal :=
  .next (checkReg opLDI a s fun i => sequencer opLDI s.pc (s.setReg i b))

/-- PRN (42_handlers R122): CORE emits the byte; its decimal text is the host's (00_scope R14). -/
def execPrn (a : Byte) (s : State) : Host.Outcome State Fault Refusal :=
  .next (checkReg opPRN a s fun i => sequencer opPRN s.pc (s.emit (s.reg i)))

end Sys2Proof.Machine
end

