-- ==== Sys2Proof/Machine/Stack.lean ====
section
/-! DEFINITION. The stack: PUSH and POP (42_handlers section 2). -/

namespace Sys2Proof.Machine

/-- PUSH (42_handlers R123): at `SP = 0` the new top is no address. -/
def execPush (a : Byte) (s : State) : Host.Outcome State Fault Refusal :=
  .next (checkReg opPUSH a s fun i =>
    check (1 ≤ s.sp.toNat) .outOfBoundsAccess opPUSH s <|
      sequencer opPUSH s.pc (s.pushByte (s.reg i)))

/-- POP (42_handlers R124): the stack is empty at `SP >= 244` (90_conflicts C8). -/
def execPop (a : Byte) (s : State) : Host.Outcome State Fault Refusal :=
  .next (checkReg opPOP a s fun i =>
    check (s.sp.toNat ≤ 243) .emptyStackUnderflow opPOP s <|
      sequencer opPOP s.pc ((s.setReg i s.top).dropTop))

end Sys2Proof.Machine
end

