-- ==== Sys2Proof/Machine/Fetch.lean ====
section
/-! DEFINITION. Fetching and decoding the instruction at `pc`, and the faults of the fetch (40_fetch R81 to R83). -/

namespace Sys2Proof.Machine

/-- The bytes of memory from `pc` on, up to the longest instruction, as far as there are addresses (0..255). Reading has no
side effect (20_memory R42), and the decoder takes only the opcode and the operands it declares (40_fetch R83). -/
def fetchBytes (s : State) : List Byte :=
  (((List.range maxLength).map (s.pc + ·)).filter (· ≤ 255)).map fun k => s.memRead (BitVec.ofNat 8 k)

/-- The instruction at `pc`, its bytes all read before it executes (20_memory R52). -/
def fetchDecode (s : State) : Except DecodeError Instr :=
  match decode (fetchBytes s) with
  | .ok (i, _) => .ok i
  | .error e => .error e

/-- The fault a failed fetch raises: past the last cell (40_fetch R81), unsupported opcode (R82), operand past the last cell
(R83). -/
def fetchFault (e : DecodeError) (s : State) : State :=
  match e with
  | .noOpcode => raise .outOfBoundsAccess none s
  | .unsupported op => raise .unsupportedOperation (some op) s
  | .operandMissing op => raise .outOfBoundsAccess (some op) s

/-- Store bytes at consecutive addresses from `addr` on; a byte whose address would lie past 255 is not stored. -/
def State.storeBytes (s : State) : Nat → List Byte → State
  | _, [] => s
  | addr, b :: bs => ((if addr ≤ 255 then s.memWrite (BitVec.ofNat 8 addr) b else s)).storeBytes (addr + 1) bs

end Sys2Proof.Machine
end

