-- ==== Sys2Proof/Machine/Step.lean ====
section
/-! DEFINITION. One step of CORE (40_fetch R80, R89): fetch, decode, execute, one whole instruction. -/

namespace Sys2Proof.Machine

/-- One step. It exists only while RUNNING (40_fetch R80, R90). A fetch that fails enters its fault, which is a next state
(40_fetch R88; notes/assumptions 1). -/
def step (s : State) : Host.Outcome State Fault Refusal :=
  match s.status with
  | .halted => .fault .coreHalted
  | .faulted => .fault .coreFaulted
  | .running =>
    match fetchDecode s with
    | .ok i => exec i s
    | .error e => .next (fetchFault e s)

/-- `s` with the instruction whose bits are `w` stored at `pc`, where the next opcode is fetched (notes/assumptions 10). -/
def State.withFetchWord (s : State) (nbits w : Nat) : State :=
  s.storeBytes s.pc (tableWordBytes nbits w)

end Sys2Proof.Machine
end

