-- ==== Sys2Proof/Machine/Boot.lean ====
section
/-! DEFINITION. What the host does before the first step and after the last: loading the image (70_reset R181, R182), the text
format of a program file (30_encoding R74), and reading the end of a run (00_scope R15, 60_exceptions R163). -/

namespace Sys2Proof.Machine

/-- The load-time errors (60_exceptions R152), and an image that does not fit (70_reset R181, D23). CORE then never starts,
so an error comes without a state. -/
inductive LoadError where
  | programNotFound
  | malformedProgram
  | imageTooLong
  deriving DecidableEq, Repr

/-- `M[i] <- P[i]` for every byte of the image and nothing else; at most 256 bytes (70_reset R181). -/
def loadImage (image : List Byte) (s : State) : Except LoadError State :=
  if image.length ≤ 256 then .ok (s.storeBytes 0 image) else .error .imageTooLong

/-- The order of boot: reset, then the load (70_reset R182). Steps follow from `pc = 0`. -/
def boot (c : Config) (image : List Byte) : Except LoadError State :=
  loadImage image (State.resetWith c)

/-- White space inside a line. -/
def isBlank (c : Char) : Bool := c = ' ' || c = '\t' || c = '\r'

/-- Text without the white space around it (DESIGN CHOICE, notes/assumptions 13). -/
def trim (text : List Char) : List Char :=
  ((text.dropWhile isBlank).reverse.dropWhile isBlank).reverse

/-- The value of a digit character in bases up to 16. -/
def digitValue (c : Char) : Option Nat :=
  if '0' ≤ c ∧ c ≤ '9' then some (c.toNat - '0'.toNat)
  else if 'a' ≤ c ∧ c ≤ 'f' then some (c.toNat - 'a'.toNat + 10)
  else if 'A' ≤ c ∧ c ≤ 'F' then some (c.toNat - 'A'.toNat + 10)
  else none

/-- The number that digits write in a base, most significant first, after the value read so far. -/
def numeral (base : Nat) : Nat → List Char → Option Nat
  | value, [] => some value
  | value, c :: rest =>
    match digitValue c with
    | some d => if d < base then numeral base (value * base + d) rest else none
    | none => none

/-- One line of a program file (30_encoding R74): from `#` on it is comment; a line left empty holds no byte; else it is an
8-character binary literal. -/
def parseLine (line : List Char) : Except LoadError (Option Byte) :=
  match trim (line.takeWhile (· ≠ '#')) with
  | [] => .ok none
  | text =>
    if text.length = 8 then
      match numeral 2 0 text with
      | some n => .ok (some (BitVec.ofNat 8 n))
      | none => .error .malformedProgram
    else .error .malformedProgram

/-- The image a program file's lines give (30_encoding R74). -/
def parseProgram : List (List Char) → Except LoadError (List Byte)
  | [] => .ok []
  | line :: rest =>
    match parseLine line, parseProgram rest with
    | .ok none, image => image
    | .ok (some b), .ok image => .ok (b :: image)
    | .ok (some _), .error e => .error e
    | .error e, _ => .error e

/-- Load a program file, `none` where its path does not exist (60_exceptions R152). -/
def loadFile (file : Option (List (List Char))) (s : State) : Except LoadError State :=
  match file with
  | none => .error .programNotFound
  | some lines =>
    match parseProgram lines with
    | .ok image => loadImage image s
    | .error e => .error e

/-- What the host reports when a run has ended (60_exceptions R163): success with the program's output, or failure (a
nonzero exit status) with the fault record; output from before the fault stays. -/
inductive RunReport where
  | success (out : List Byte)
  | failure (record : FaultRecord) (out : List Byte)
  deriving DecidableEq, Repr

/-- The report of a state, none while the run goes on. -/
def runReport (s : State) : Option RunReport :=
  match s.status with
  | .running => none
  | .halted => some (.success s.out)
  | .faulted => some (.failure s.fault s.out)

end Sys2Proof.Machine
end

