-- ==== Sys2Proof/Machine/Assembler.lean ====
section
/-! DEFINITION. The assembler statements of 30_encoding R73: reading one, and writing one. What R73 does not fix is
notes/assumptions 14. -/

namespace Sys2Proof.Machine

/-- A register operand `R0` to `R7`, case-insensitive. -/
def parseRegister (text : List Char) : Option Byte :=
  match text with
  | [r, d] =>
    if (r = 'R' ∨ r = 'r') ∧ '0' ≤ d ∧ d ≤ '7' then some (BitVec.ofNat 8 (d.toNat - '0'.toNat)) else none
  | _ => none

/-- Digits of a base, at least one, with a value 0..255. -/
def parseByte (base : Nat) (digits : List Char) : Option Byte :=
  match digits with
  | [] => none
  | _ =>
    match numeral base 0 digits with
    | some n => if n ≤ 255 then some (BitVec.ofNat 8 n) else none
    | none => none

/-- An immediate: decimal, or `0x` hexadecimal, or `0b` binary. -/
def parseImmediate (text : List Char) : Option Byte :=
  match text with
  | '0' :: 'x' :: digits => parseByte 16 digits
  | '0' :: 'b' :: digits => parseByte 2 digits
  | digits => parseByte 10 digits

/-- The parts of a text between commas. -/
def splitCommas : List Char → List (List Char)
  | [] => [[]]
  | c :: rest =>
    match splitCommas rest with
    | part :: parts => if c = ',' then [] :: part :: parts else (c :: part) :: parts
    | [] => [[c]]

/-- Two register operands. -/
def registerPair (make : Byte → Byte → Instr) (a b : List Char) : Option Instr :=
  match parseRegister a, parseRegister b with
  | some x, some y => some (make x y)
  | _, _ => none

/-- The instruction of a mnemonic and its operand texts. -/
def instrOfParts (mnemonic : List Char) (operands : List (List Char)) : Option Instr :=
  match mnemonic, operands with
  | ['H', 'L', 'T'], [] => some .hlt
  | ['L', 'D', 'I'], [a, b] =>
    match parseRegister a, parseImmediate b with
    | some x, some v => some (.ldi x v)
    | _, _ => none
  | ['P', 'R', 'N'], [a] => (parseRegister a).map .prn
  | ['P', 'U', 'S', 'H'], [a] => (parseRegister a).map .push
  | ['P', 'O', 'P'], [a] => (parseRegister a).map .pop
  | ['C', 'A', 'L', 'L'], [a] => (parseRegister a).map .call
  | ['R', 'E', 'T'], [] => some .ret
  | ['A', 'D', 'D'], [a, b] => registerPair .add a b
  | ['S', 'U', 'B'], [a, b] => registerPair .sub a b
  | ['M', 'U', 'L'], [a, b] => registerPair .mul a b
  | ['C', 'M', 'P'], [a, b] => registerPair .cmp a b
  | _, _ => none

/-- Read one statement: a mnemonic, then zero, one or two operands separated by a comma (30_encoding R73). -/
def assemble (text : List Char) : Option Instr :=
  let statement := trim text
  let mnemonic := statement.takeWhile fun c => !isBlank c
  let tail := trim (statement.drop mnemonic.length)
  instrOfParts mnemonic (if tail = [] then [] else (splitCommas tail).map trim)

/-- A decimal digit. -/
def decimalDigit (n : Nat) : Char := Char.ofNat ('0'.toNat + n % 10)

/-- A byte in decimal, without leading zeros. -/
def decimal (v : Byte) : List Char :=
  let n := v.toNat
  if n < 10 then [decimalDigit n]
  else if n < 100 then [decimalDigit (n / 10), decimalDigit n]
  else [decimalDigit (n / 100), decimalDigit (n / 10), decimalDigit n]

/-- The text of a register operand. -/
def registerText (a : Byte) : List Char := 'R' :: decimal a

/-- Write one statement in the forms of the table of 30_encoding R73. -/
def statementText : Instr → List Char
  | .hlt => ['H', 'L', 'T']
  | .ldi a b => ['L', 'D', 'I', ' '] ++ registerText a ++ [',', ' '] ++ decimal b
  | .prn a => ['P', 'R', 'N', ' '] ++ registerText a
  | .push a => ['P', 'U', 'S', 'H', ' '] ++ registerText a
  | .pop a => ['P', 'O', 'P', ' '] ++ registerText a
  | .call a => ['C', 'A', 'L', 'L', ' '] ++ registerText a
  | .ret => ['R', 'E', 'T']
  | .add a b => ['A', 'D', 'D', ' '] ++ registerText a ++ [',', ' '] ++ registerText b
  | .sub a b => ['S', 'U', 'B', ' '] ++ registerText a ++ [',', ' '] ++ registerText b
  | .mul a b => ['M', 'U', 'L', ' '] ++ registerText a ++ [',', ' '] ++ registerText b
  | .cmp a b => ['C', 'M', 'P', ' '] ++ registerText a ++ [',', ' '] ++ registerText b

end Sys2Proof.Machine
end

