-- ==== Sys2Proof/Safety.lean ====
section
/-! DEFINITION. The words claims are written in: the parts of the state an instruction may change, fault entry as seen from
outside, and the invariant of every reachable state. -/

namespace Sys2Proof.Machine

/-- The parts of the state a program can tell apart (10_state R20). -/
inductive Part where
  | reg (i : Fin 8)
  | pc
  | sp
  | fl
  | status
  | fault
  | out
  | cell (addr : Byte)
  deriving DecidableEq, Repr

/-- `t` is `s` outside the named parts: every other register and memory cell reads as before, every other component is the
same, and so is the parameter CALL_TARGET_MODE. -/
structure KeepsOutside (changed : List Part) (s t : State) : Prop where
  regs : ∀ i, Part.reg i ∉ changed → t.reg i = s.reg i
  cells : ∀ addr, Part.cell addr ∉ changed → t.memRead addr = s.memRead addr
  pc : Part.pc ∉ changed → t.pc = s.pc
  sp : Part.sp ∉ changed → t.sp = s.sp
  fl : Part.fl ∉ changed → t.fl = s.fl
  status : Part.status ∉ changed → t.status = s.status
  fault : Part.fault ∉ changed → t.fault = s.fault
  out : Part.out ∉ changed → t.out = s.out
  mode : t.callTargetMode = s.callTargetMode

/-- Fault entry from `s` to `t` (60_exceptions R154): the status and the record are written, with `fault.pc` the address of
the instruction, and everything else, `pc` included, is as before it. -/
structure FaultsWith (cause : FaultCause) (op : Option Byte) (s t : State) : Prop where
  status : t.status = .faulted
  record : t.fault = ⟨cause, s.pc, op⟩
  rest : KeepsOutside [.status, .fault] s t

/-- The register an operand byte names, as a part of the state; none above 7. -/
def registerPart (a : Byte) : List Part := (regIndex a).toList.map .reg

/-- The parts an instruction writes when it does not fault, with the address a push stores to computed as the meaning computes
it (10_state R25, R27, R30, R32, R36; 20_memory R48). -/
def writtenParts (i : Instr) (s : State) : List Part :=
  match i with
  | .hlt => [.status, .pc]
  | .ldi a _ => .pc :: registerPart a
  | .prn _ => [.out, .pc]
  | .push _ => [.sp, .cell s.pushAddr, .pc]
  | .pop a => .sp :: .pc :: registerPart a
  | .call _ => [.sp, .cell s.pushAddr, .pc]
  | .ret => [.sp, .pc]
  | .add a _ => .pc :: registerPart a
  | .sub a _ => .pc :: registerPart a
  | .mul a _ => .pc :: registerPart a
  | .cmp _ _ => [.fl, .pc]

/-- What holds of every state a run can reach: the spec's own bounds, and the canonical form of the model's memory list. -/
structure State.Inv (s : State) : Prop where
  /-- Memory is in canonical form, the model's choice (DESIGN CHOICE, notes/assumptions 7); its addresses are 0..255 (20_memory
  R40). -/
  mem : s.mem.wf
  /-- `pc` is 0 to 256 (10_state R26). -/
  pc : s.pc ≤ 256
  /-- `SP` is 0 to 244 (10_state R29). -/
  sp : s.sp.toNat ≤ 244
  /-- `FL` has no bit set, or exactly one of E, G and L (10_state R31). -/
  fl : s.fl = 0x00 ∨ s.fl = 0x01 ∨ s.fl = 0x02 ∨ s.fl = 0x04
  /-- `fault.pc` is 0 to 256 (10_state R35). -/
  faultPc : s.fault.pc ≤ 256
  /-- A core that is not FAULTED has met no fault (10_state R34, R35). -/
  noFault : s.status ≠ .faulted → s.fault.cause = .none
  /-- A FAULTED core names its cause, and `pc` still is the faulting instruction's address (60_exceptions R154). -/
  faulted : s.status = .faulted → s.fault.cause ≠ .none ∧ s.fault.pc = s.pc
  /-- Its opcode is NONE exactly where the opcode fetch itself faulted, at 256 (60_exceptions R151). -/
  faultOpcode : s.status = .faulted → (s.fault.opcode = none ↔ s.pc = 256)
  /-- A HALTED core stands after the HLT it executed (40_fetch R87). -/
  halted : s.status = .halted → 1 ≤ s.pc

end Sys2Proof.Machine
end

