-- ==== Sys2Proof/Certificates/Slice0/Obligations.lean ====
section
/-! DEFINITION. What is claimed of the model, for the provers. Each docstring names the rule or the sections it rests on; a
clause that rests on a decision the spec marks as its own (D<n>) or on a log entry is named as such. -/

open Sys2Proof Sys2Proof.Machine

/-! ## Encoding and decoding -/

/-- The decoder reads an instruction exactly from that instruction's own bytes, and hands back what follows: no bit of an
encoding is dropped, no two encodings meet (30_encoding R60, R65, R66, R69). -/
def Obligations.DecodeAgreesWithEncode : Prop :=
  ∀ (bytes rest : List Byte) (i : Instr), decode bytes = .ok (i, rest) ↔ bytes = encode i ++ rest

/-- Words written out from the table of 30_encoding R69 decode to the instructions they stand for (CMP's byte is D1). -/
def Obligations.SampleWordsDecode : Prop :=
  decode [0b00000001] = .ok (.hlt, []) ∧ decode [0b10000010, 3, 255] = .ok (.ldi 3 255, []) ∧
  decode [0b01000101, 2] = .ok (.push 2, []) ∧ decode [0b01010000, 1, 9] = .ok (.call 1, [9]) ∧
  decode [0b10100011, 2, 3] = .ok (.sub 2 3, []) ∧ decode [0b10100111, 4, 1] = .ok (.cmp 4 1, [])

/-- An opcode byte's fields say what the instruction is: its length, whether the ALU runs it, whether it sets `pc` itself
(30_encoding R61 to R64, R69; CMP's byte is D1). -/
def Obligations.OpcodeFieldsAgree : Prop :=
  ∀ i : Instr, (encode i).head? = some (opcode i) ∧ (encode i).length = 1 + numOperands (opcode i) ∧
    (isAluOp (opcode i) = true ↔ ∃ a b, i = .add a b ∨ i = .sub a b ∨ i = .mul a b ∨ i = .cmp a b) ∧
    (setsPc (opcode i) = true ↔ i = .ret ∨ ∃ a, i = .call a)

/-- Every opcode byte that is none of the eleven, 245 of the 256, raises UnsupportedOperation when it is fetched, and nothing
executes (30_encoding R71). That it comes before any operand fetch, so at address 255 too, is the spec's decision D11
(40_fetch R82), and that nothing else changes is its decision D9 (60_exceptions R154); both are notes/assumptions 8. -/
def Obligations.UnsupportedOpcodeFaults : Prop :=
  ((List.range 256).filter fun n =>
      decide (n ∉ [0x01, 0x82, 0x47, 0x45, 0x46, 0x50, 0x11, 0xA0, 0xA3, 0xA2, 0xA7])).length = 245 ∧
  ∀ (s : State) (op : Byte), s.status = .running → s.pc ≤ 255 → s.memRead (BitVec.ofNat 8 s.pc) = op →
    op.toNat ∉ [0x01, 0x82, 0x47, 0x45, 0x46, 0x50, 0x11, 0xA0, 0xA3, 0xA2, 0xA7] →
    ∃ t, step s = .next t ∧ FaultsWith .unsupportedOperation (some op) s t

/-- A well-formed instruction's assembler text reads back as that instruction (30_encoding R73, D22, notes/assumptions 14). -/
def Obligations.AssemblerReadsWhatItWrites : Prop :=
  ∀ i : Instr, i.wellFormed = true → assemble (statementText i) = some i

/-! ## The step -/

/-- Where the bytes at `pc` decode to an instruction, the step is that instruction's meaning and nothing around it
(40_fetch R84, R89). -/
def Obligations.StepRunsDecodedInstruction : Prop :=
  ∀ (s : State) (i : Instr) (rest : List Byte), s.status = .running → decode (fetchBytes s) = .ok (i, rest) →
    step s = exec i s

/-- Where the cells from `pc` on hold an instruction's bytes, none past 255, the step is that instruction's meaning. Only the
declared bytes matter: a one-byte instruction runs at 255, a two-byte one at 254 (40_fetch R81 to R84, R89, D3). -/
def Obligations.StepExecutesInstructionInMemory : Prop :=
  ∀ (s : State) (i : Instr), s.status = .running → s.pc + (encode i).length ≤ 256 →
    (∀ k, k < (encode i).length → (encode i)[k]? = some (s.memRead (BitVec.ofNat 8 (s.pc + k)))) →
    step s = exec i s

/-- An opcode fetch past the last cell raises OutOfBoundsAccess, with no opcode in the record (40_fetch R81, D4, D15). -/
def Obligations.OpcodeFetchPastMemoryFaults : Prop :=
  ∀ s : State, s.status = .running → 255 < s.pc →
    ∃ t, step s = .next t ∧ FaultsWith .outOfBoundsAccess none s t

/-- An operand fetch past the last cell raises OutOfBoundsAccess with the opcode in the record (40_fetch R83, D3, D4). -/
def Obligations.OperandFetchPastMemoryFaults : Prop :=
  ∀ (s : State) (i : Instr), s.status = .running → s.pc ≤ 255 → s.memRead (BitVec.ofNat 8 s.pc) = opcode i →
    255 < s.pc + numOperands (opcode i) →
    ∃ t, step s = .next t ∧ FaultsWith .outOfBoundsAccess (some (opcode i)) s t

/-- A HALTED or FAULTED state has no step (40_fetch R90). The names `step` answers there, `coreHalted` and `coreFaulted`, are
the model's own (notes/assumptions 1). -/
def Obligations.StoppedCoreHasNoStep : Prop :=
  ∀ s : State, s.status ≠ .running →
    (∀ t, step s ≠ .next t) ∧ (s.status = .halted → step s = .fault .coreHalted) ∧
    (s.status = .faulted → step s = .fault .coreFaulted)

/-- A RUNNING state always has a step, whatever memory holds: no byte sequence is refused and none is stuck (40_fetch R80,
93_implementation_defined section 1). -/
def Obligations.RunningCoreAlwaysSteps : Prop :=
  ∀ s : State, s.status = .running → ∃ t, step s = .next t

/-- HLT's own step finishes, its `pc` advance included, and no later step exists, even after a HLT at 255 (40_fetch R87). That
every later run answers `coreHalted` is how the model says so, under a name of its own (notes/assumptions 1). -/
def Obligations.HaltFinishesItsStep : Prop :=
  ∀ s : State, s.status = .running → s.pc ≤ 255 → s.memRead (BitVec.ofNat 8 s.pc) = 0x01 →
    ∃ t, step s = .next t ∧ t.status = .halted ∧ t.pc = s.pc + 1 ∧ KeepsOutside [.status, .pc] s t ∧
      ∀ k, Sys2Proof.core.run (k + 1) t = .fault .coreHalted

/-- Only the byte of HLT at `pc` halts a running core (10_state R34, 42_handlers R120). -/
def Obligations.OnlyHltHalts : Prop :=
  ∀ s t : State, s.status = .running → step s = .next t → t.status = .halted →
    s.pc ≤ 255 ∧ s.memRead (BitVec.ofNat 8 s.pc) = 0x01

/-- A step that ends FAULTED is fault entry and nothing else: the record has a cause and the instruction's address, the opcode
is the byte at `pc` (NONE only past 255), and no register, cell, SP, FL, output or `pc` changed (60_exceptions R154, D9). -/
def Obligations.FaultsArePrecise : Prop :=
  ∀ s t : State, s.status = .running → step s = .next t → t.status = .faulted →
    FaultsWith t.fault.cause t.fault.opcode s t ∧ t.fault.cause ≠ .none ∧
    t.fault.opcode = if s.pc ≤ 255 then some (s.memRead (BitVec.ofNat 8 s.pc)) else none

/-- How each instruction changes `pc`: past its own bytes, or to CALL's target or RET's popped byte, or not at all where it
faults (10_state R27). CALL's target is the value of the register its mode selects (42_handlers R125, decision D2), the mode
being held in a State field of the model's own (notes/assumptions 4). -/
def Obligations.PcChangesByInstruction : Prop :=
  ∀ (i : Instr) (s t : State), exec i s = .next t →
    (t.status = .faulted → s.status ≠ .faulted → t.pc = s.pc) ∧
    (t.status ≠ .faulted →
      (setsPc (opcode i) = false → t.pc = s.pc + 1 + numOperands (opcode i)) ∧
      (i = .hlt → t.pc = s.pc + 1) ∧
      (∀ a, i = .prn a ∨ i = .push a ∨ i = .pop a → t.pc = s.pc + 2) ∧
      (∀ a b, i = .ldi a b ∨ i = .add a b ∨ i = .sub a b ∨ i = .mul a b ∨ i = .cmp a b → t.pc = s.pc + 3) ∧
      (∀ a, i = .call a → ∃ r : Fin 8, t.pc = (s.reg r).toNat ∧
        (s.callTargetMode = .direct → a.toNat = r) ∧
        (s.callTargetMode = .referenceIndirect → (t.memRead a).toNat = r)) ∧
      (i = .ret → t.pc = (s.memRead s.sp).toNat))

/-- The instruction bits that `withFetchWord` lays down where the next opcode is fetched are what the next step runs
(the model's own convention, notes/assumptions 10). -/
def Obligations.FetchWordRunsAsNextInstruction : Prop :=
  ∀ (s : State) (nbits w : Nat) (i : Instr), s.status = .running → s.pc ≤ 253 → decodeTableWord nbits w = some i →
    step (s.withFetchWord nbits w) = exec i (s.withFetchWord nbits w)

/-- An instruction faults under the conditions of the fault table and no other: an index operand above 7, a push at `SP = 0`, a
return address that is no byte, an index read by CALL above 7, a pop of the empty stack (60_exceptions R151, D5 to D8). -/
def Obligations.FaultConditionsAreExactlyTheTable : Prop :=
  ∀ (i : Instr) (s t : State), s.status ≠ .faulted → exec i s = .next t →
    (t.status = .faulted ↔
      (∃ a ∈ i.registerOperands, 7 < a.toNat ∧ ¬ (i = .call a ∧ s.callTargetMode = .referenceIndirect)) ∨
      ((∃ a, i = .push a ∨ i = .call a) ∧ s.sp.toNat = 0) ∨
      ((∃ a, i = .call a) ∧ 255 < s.pc + 2) ∨
      (∃ a, i = .call a ∧ s.callTargetMode = .referenceIndirect ∧ 7 < (s.calleeIndex a).toNat) ∨
      (((∃ a, i = .pop a) ∨ i = .ret) ∧ 244 ≤ s.sp.toNat))

/-! ## The ALU -/

/-- ADD (41_alu R101): the sum mod 256 into the first register, everything else but `pc` as before, and OutOfBoundsAccess for
an index above 7. -/
def Obligations.AddSemantics : Prop :=
  ∀ (a b : Byte) (s : State), encode (.add a b) = [0b10100000, a, b] ∧
    (∀ i j : Fin 8, a.toNat = i → b.toNat = j → ∃ t, exec (.add a b) s = .next t ∧
      (t.reg i).toNat = ((s.reg i).toNat + (s.reg j).toNat) % 256 ∧ t.pc = s.pc + 3 ∧ KeepsOutside [.reg i, .pc] s t) ∧
    (7 < a.toNat ∨ 7 < b.toNat → ∃ t, exec (.add a b) s = .next t ∧ FaultsWith .outOfBoundsAccess (some 0xA0) s t)

/-- SUB (41_alu R102): the difference mod 256, in 0..255, into the first register, everything else but `pc` as before, and
OutOfBoundsAccess for an index above 7. -/
def Obligations.SubSemantics : Prop :=
  ∀ (a b : Byte) (s : State), encode (.sub a b) = [0b10100011, a, b] ∧
    (∀ i j : Fin 8, a.toNat = i → b.toNat = j → ∃ t, exec (.sub a b) s = .next t ∧
      ((t.reg i).toNat : Int) = (((s.reg i).toNat : Int) - (s.reg j).toNat) % 256 ∧ t.pc = s.pc + 3 ∧
      KeepsOutside [.reg i, .pc] s t) ∧
    (7 < a.toNat ∨ 7 < b.toNat → ∃ t, exec (.sub a b) s = .next t ∧ FaultsWith .outOfBoundsAccess (some 0xA3) s t)

/-- MUL (41_alu R103): the low byte of the product into the first register, everything else but `pc` as before, and
OutOfBoundsAccess for an index above 7. -/
def Obligations.MulSemantics : Prop :=
  ∀ (a b : Byte) (s : State), encode (.mul a b) = [0b10100010, a, b] ∧
    (∀ i j : Fin 8, a.toNat = i → b.toNat = j → ∃ t, exec (.mul a b) s = .next t ∧
      (t.reg i).toNat = ((s.reg i).toNat * (s.reg j).toNat) % 256 ∧ t.pc = s.pc + 3 ∧ KeepsOutside [.reg i, .pc] s t) ∧
    (7 < a.toNat ∨ 7 < b.toNat → ∃ t, exec (.mul a b) s = .next t ∧ FaultsWith .outOfBoundsAccess (some 0xA2) s t)

/-- CMP (41_alu R104): all of FL is written, with exactly the bit of the unsigned relation set, everything else but `pc` as
before, and OutOfBoundsAccess for an index above 7. CMP's byte is the spec's decision D1. -/
def Obligations.CmpSemantics : Prop :=
  ∀ (a b : Byte) (s : State), encode (.cmp a b) = [0b10100111, a, b] ∧
    (∀ i j : Fin 8, a.toNat = i → b.toNat = j → ∃ t, exec (.cmp a b) s = .next t ∧
      (flagL t.fl = true ↔ (s.reg i).toNat < (s.reg j).toNat) ∧
      (flagG t.fl = true ↔ (s.reg j).toNat < (s.reg i).toNat) ∧
      (flagE t.fl = true ↔ s.reg i = s.reg j) ∧
      (∀ n, 3 ≤ n → t.fl.getLsbD n = false) ∧ t.pc = s.pc + 3 ∧ KeepsOutside [.fl, .pc] s t) ∧
    (7 < a.toNat ∨ 7 < b.toNat → ∃ t, exec (.cmp a b) s = .next t ∧ FaultsWith .outOfBoundsAccess (some 0xA7) s t)

/-- Any other opcode at the ALU's entry is unsupported, after the index checks (41_alu R100, R105). No step gets there. -/
def Obligations.AluRefusesOtherOpcodes : Prop :=
  ∀ (op a b : Byte) (s : State), op.toNat ∉ [0xA0, 0xA3, 0xA2, 0xA7] →
    (a.toNat ≤ 7 ∧ b.toNat ≤ 7 → FaultsWith .unsupportedOperation (some op) s (execAlu op a b s)) ∧
    (7 < a.toNat ∨ 7 < b.toNat → FaultsWith .outOfBoundsAccess (some op) s (execAlu op a b s))

/-- The exact integer result reduced mod 256 is the wrapping byte operation: ADD, SUB and MUL on bytes are the ring of
integers mod 256 (41_alu R106). -/
def Obligations.AluArithmeticIsModulo256 : Prop :=
  ∀ x y : Byte, byteOfInt (intOfByte x + intOfByte y) = x + y ∧ byteOfInt (intOfByte x - intOfByte y) = x - y ∧
    byteOfInt (intOfByte x * intOfByte y) = x * y

/-- The ALU instructions neither read nor write memory, SP or the output channel. With both index operands in 0..7, ADD, SUB
and MUL change only `x[a]` and `pc`, CMP only FL and `pc`, and `pc` advances by 3; status, the fault record and the mode are
kept with everything else. Fault or no fault, memory, SP and the output are kept, CMP keeps every register, and the other
three keep FL and every register but `x[a]` (41_alu R107). -/
def Obligations.AluTouchesRegistersAndFlagsOnly : Prop :=
  ∀ (i : Instr) (a b : Byte), i = .add a b ∨ i = .sub a b ∨ i = .mul a b ∨ i = .cmp a b → ∀ s t : State, exec i s = .next t →
    (∀ (m : Memory) (p : Byte) (o : List Byte),
      exec i { s with mem := m, sp := p, out := o } = .next { t with mem := m, sp := p, out := o }) ∧
    t.mem = s.mem ∧ t.sp = s.sp ∧ t.out = s.out ∧
    (i = .cmp a b → ∀ r, t.reg r = s.reg r) ∧
    (i ≠ .cmp a b → t.fl = s.fl ∧ ∀ r : Fin 8, a.toNat ≠ r → t.reg r = s.reg r) ∧
    (t.status ≠ .faulted → t.pc = s.pc + 3) ∧
    (∀ r j : Fin 8, a.toNat = r → b.toNat = j →
      t.pc = s.pc + 3 ∧ (i = .cmp a b → KeepsOutside [.fl, .pc] s t) ∧ (i ≠ .cmp a b → KeepsOutside [.reg r, .pc] s t))

/-! ## Named handlers -/

/-- HLT (42_handlers R120): the status becomes HALTED, `pc` advances by 1, nothing else changes; it has no fault of its own. -/
def Obligations.HltSemantics : Prop :=
  ∀ s : State, encode .hlt = [0b00000001] ∧
    ∃ t, exec .hlt s = .next t ∧ t.status = .halted ∧ t.pc = s.pc + 1 ∧ KeepsOutside [.status, .pc] s t

/-- LDI (42_handlers R121): the literal, unchanged, into the register, R7 included, everything else but `pc` as before, SP
too; OutOfBoundsAccess for an index above 7 (D5). -/
def Obligations.LdiSemantics : Prop :=
  ∀ (a b : Byte) (s : State), encode (.ldi a b) = [0b10000010, a, b] ∧
    (∀ i : Fin 8, a.toNat = i → ∃ t, exec (.ldi a b) s = .next t ∧ t.reg i = b ∧ t.pc = s.pc + 3 ∧
      KeepsOutside [.reg i, .pc] s t) ∧
    (7 < a.toNat → ∃ t, exec (.ldi a b) s = .next t ∧ FaultsWith .outOfBoundsAccess (some 0x82) s t)

/-- PRN (42_handlers R122): the register's byte is appended to the output, everything else but `pc` as before;
OutOfBoundsAccess for an index above 7. -/
def Obligations.PrnSemantics : Prop :=
  ∀ (a : Byte) (s : State), encode (.prn a) = [0b01000111, a] ∧
    (∀ i : Fin 8, a.toNat = i → ∃ t, exec (.prn a) s = .next t ∧ t.out = s.out ++ [s.reg i] ∧ t.pc = s.pc + 2 ∧
      KeepsOutside [.out, .pc] s t) ∧
    (7 < a.toNat → ∃ t, exec (.prn a) s = .next t ∧ FaultsWith .outOfBoundsAccess (some 0x47) s t)

/-- PUSH (42_handlers R123): SP goes down by 1 and the cell there takes the register's byte, every other cell and every
register as before; OutOfBoundsAccess for an index above 7 (D5) or at `SP = 0` (D7). -/
def Obligations.PushSemantics : Prop :=
  ∀ (a : Byte) (s : State), encode (.push a) = [0b01000101, a] ∧
    (∀ i : Fin 8, a.toNat = i → 1 ≤ s.sp.toNat → ∃ t, exec (.push a) s = .next t ∧ t.sp.toNat = s.sp.toNat - 1 ∧
      t.sp = s.pushAddr ∧ t.memRead s.pushAddr = s.reg i ∧ t.pc = s.pc + 2 ∧
      KeepsOutside [.sp, .cell s.pushAddr, .pc] s t) ∧
    (7 < a.toNat ∨ s.sp.toNat = 0 → ∃ t, exec (.push a) s = .next t ∧ FaultsWith .outOfBoundsAccess (some 0x45) s t)

/-- POP (42_handlers R124): the byte at SP into the register and SP up by 1, every cell as before, the popped one too;
OutOfBoundsAccess for an index above 7 (D5), checked first (D11), and EmptyStackUnderflow at `SP >= 244` (D6). -/
def Obligations.PopSemantics : Prop :=
  ∀ (a : Byte) (s : State), encode (.pop a) = [0b01000110, a] ∧
    (∀ i : Fin 8, a.toNat = i → s.sp.toNat ≤ 243 → ∃ t, exec (.pop a) s = .next t ∧ t.reg i = s.memRead s.sp ∧
      t.sp.toNat = s.sp.toNat + 1 ∧ t.pc = s.pc + 2 ∧ KeepsOutside [.reg i, .sp, .pc] s t) ∧
    (7 < a.toNat → ∃ t, exec (.pop a) s = .next t ∧ FaultsWith .outOfBoundsAccess (some 0x46) s t) ∧
    (a.toNat ≤ 7 → 244 ≤ s.sp.toNat → ∃ t, exec (.pop a) s = .next t ∧ FaultsWith .emptyStackUnderflow (some 0x46) s t)

/-- CALL with `CALL_TARGET_MODE = direct` (42_handlers R125, D2): the return address `PC0 + 2` is pushed and `pc` becomes the
value of register `a`; OutOfBoundsAccess for an index above 7 (D5), at `SP = 0` (D7), or where `PC0 + 2` is no byte (D8). -/
def Obligations.CallDirectSemantics : Prop :=
  ∀ (a : Byte) (s : State), s.callTargetMode = .direct → encode (.call a) = [0b01010000, a] ∧
    (∀ i : Fin 8, a.toNat = i → 1 ≤ s.sp.toNat → s.pc + 2 ≤ 255 → ∃ t, exec (.call a) s = .next t ∧
      t.sp.toNat = s.sp.toNat - 1 ∧ t.sp = s.pushAddr ∧ (t.memRead s.pushAddr).toNat = s.pc + 2 ∧
      t.pc = (s.reg i).toNat ∧ KeepsOutside [.sp, .cell s.pushAddr, .pc] s t) ∧
    (7 < a.toNat ∨ s.sp.toNat = 0 ∨ 255 < s.pc + 2 →
      ∃ t, exec (.call a) s = .next t ∧ FaultsWith .outOfBoundsAccess (some 0x50) s t)

/-- CALL with `CALL_TARGET_MODE = reference_indirect` (42_handlers R125, D2): the same push, and `pc` becomes the value of the
register that the byte at address `a` names AFTER the push; OutOfBoundsAccess at `SP = 0`, where `PC0 + 2` is no byte, or
where that byte is above 7. -/
def Obligations.CallIndirectSemantics : Prop :=
  ∀ (a : Byte) (s : State), s.callTargetMode = .referenceIndirect →
    (∀ i : Fin 8, 1 ≤ s.sp.toNat → s.pc + 2 ≤ 255 →
      (if a = s.pushAddr then s.pc + 2 else (s.memRead a).toNat) = i → ∃ t, exec (.call a) s = .next t ∧
      t.sp.toNat = s.sp.toNat - 1 ∧ t.sp = s.pushAddr ∧ (t.memRead s.pushAddr).toNat = s.pc + 2 ∧
      t.memRead a = BitVec.ofNat 8 i ∧ t.pc = (s.reg i).toNat ∧ KeepsOutside [.sp, .cell s.pushAddr, .pc] s t) ∧
    (s.sp.toNat = 0 ∨ 255 < s.pc + 2 ∨ 7 < (if a = s.pushAddr then s.pc + 2 else (s.memRead a).toNat) →
      ∃ t, exec (.call a) s = .next t ∧ FaultsWith .outOfBoundsAccess (some 0x50) s t)

/-- RET (42_handlers R126): `pc` becomes the byte at SP and SP goes up by exactly 1, nothing else changes;
EmptyStackUnderflow at `SP >= 244` (D6). -/
def Obligations.RetSemantics : Prop :=
  ∀ s : State, encode .ret = [0b00010001] ∧
    (s.sp.toNat ≤ 243 → ∃ t, exec .ret s = .next t ∧ t.pc = (s.memRead s.sp).toNat ∧ t.sp.toNat = s.sp.toNat + 1 ∧
      KeepsOutside [.sp, .pc] s t) ∧
    (244 ≤ s.sp.toNat → ∃ t, exec .ret s = .next t ∧ FaultsWith .emptyStackUnderflow (some 0x11) s t)

/-! ## Frames and laws of the whole machine -/

/-- Frame of every form that stores nothing: unless it enters a fault, only its destination register, `pc` and what its rule
names change, and every byte of memory reads as before (10_state R25, R27, R30, R32, R36; 20_memory R48). -/
def Obligations.FrameOfFormsThatStoreNothing : Prop :=
  ∀ (i : Instr) (s t : State), (∀ a, i ≠ .push a ∧ i ≠ .call a) → exec i s = .next t →
    (∀ addr, t.memRead addr = s.memRead addr) ∧
    ((∃ cause, FaultsWith cause (some (opcode i)) s t) ∨ KeepsOutside (writtenParts i s) s t)

/-- Frame of PUSH and CALL: every cell but the one at the address the push computes reads as before, and unless they fault
only SP, that cell and `pc` change (42_handlers R123, R125; 20_memory R48). -/
def Obligations.FrameOfFormsThatStore : Prop :=
  ∀ (i : Instr) (a : Byte) (s t : State), i = .push a ∨ i = .call a → exec i s = .next t →
    (∀ addr, addr ≠ s.pushAddr → t.memRead addr = s.memRead addr) ∧
    ((∃ cause, FaultsWith cause (some (opcode i)) s t) ∨ KeepsOutside [.sp, .cell s.pushAddr, .pc] s t)

/-- FL is written only by CMP, and in full; no instruction reads it: with another FL before, every instruction does the same
and carries that FL along, or CMP overwrites it. Reset clears it (10_state R32; the reset value is D14). -/
def Obligations.FlagsAreWrittenOnlyByCmpAndNeverRead : Prop :=
  (∀ c : Config, (State.resetWith c).fl = 0x00) ∧
  ∀ (i : Instr) (s t : State) (v : Byte), exec i s = .next t →
    ((∀ a b, i ≠ .cmp a b) → t.fl = s.fl) ∧
    (exec i { s with fl := v } = .next { t with fl := v } ∨
      (∃ a b, i = .cmp a b) ∧ exec i { s with fl := v } = .next t)

/-- Only PUSH, POP, CALL and RET change SP, and only they read it: any other instruction does the same whatever SP is
(10_state R30). -/
def Obligations.OnlyStackInstructionsUseSp : Prop :=
  ∀ (i : Instr) (s t : State) (v : Byte), (∀ a, i ≠ .push a ∧ i ≠ .pop a ∧ i ≠ .call a) → i ≠ .ret →
    exec i s = .next t → t.sp = s.sp ∧ exec i { s with sp := v } = .next { t with sp := v }

/-- R7 starts at 244 and does not follow SP: no stack instruction changes it but a POP into it, and writing it by LDI or the ALU
leaves SP (10_state R22, 42_handlers R124, 70_reset R186). -/
def Obligations.R7DoesNotFollowSp : Prop :=
  (∀ c : Config, (State.resetWith c).reg 7 = 244) ∧
  ∀ (i : Instr) (s t : State), exec i s = .next t →
    ((∃ a, i = .push a ∨ i = .call a ∨ (i = .pop a ∧ a ≠ 7)) ∨ i = .ret → t.reg 7 = s.reg 7) ∧
    ((∃ b, i = .ldi 7 b ∨ i = .add 7 b ∨ i = .sub 7 b ∨ i = .mul 7 b) → t.sp = s.sp)

/-- The output channel: reset empties it, only PRN changes it, by appending one byte, and a step never removes or reorders an
entry (10_state R36). -/
def Obligations.OutputIsAppendOnly : Prop :=
  (∀ c : Config, (State.resetWith c).out = []) ∧
  (∀ (i : Instr) (s t : State), exec i s = .next t → t.out = s.out ∨
    ∃ (a : Byte) (r : Fin 8), i = .prn a ∧ a.toNat = r ∧ t.out = s.out ++ [s.reg r]) ∧
  ∀ s t : State, step s = .next t → t.out = s.out ∨ ∃ v, t.out = s.out ++ [v]

/-- No step changes CALL_TARGET_MODE: a parameter does not change during a run (10_state R20; the model's own field,
notes/assumptions 4). -/
def Obligations.CallTargetModeIsFixed : Prop :=
  ∀ s t : State, step s = .next t → t.callTargetMode = s.callTargetMode

/-- PUSH Ra then POP Rb moves the value and restores SP, and the cell keeps the value (42_handlers R130). -/
def Obligations.PushThenPopMovesTheValue : Prop :=
  ∀ (s : State) (a b : Byte) (i j : Fin 8), a.toNat = i → b.toNat = j → 1 ≤ s.sp.toNat → s.sp.toNat ≤ 244 →
    ∃ t u, exec (.push a) s = .next t ∧ exec (.pop b) t = .next u ∧ u.reg j = s.reg i ∧ u.sp = s.sp ∧
      u.memRead s.pushAddr = s.reg i ∧ ∀ r, r ≠ j → u.reg r = s.reg r

/-- CALL, then any code that leaves SP and the pushed cell as CALL left them, then RET: control returns to `PC0 + 2` with SP
as before the CALL (42_handlers R129). -/
def Obligations.CallThenRetReturns : Prop :=
  ∀ (s : State) (a : Byte) (i : Fin 8), s.callTargetMode = .direct → a.toNat = i → 1 ≤ s.sp.toNat → s.sp.toNat ≤ 244 →
    s.pc ≤ 253 →
    ∃ t, exec (.call a) s = .next t ∧ t.pc = (s.reg i).toNat ∧
      ∀ u : State, u.sp = t.sp → u.memRead t.sp = t.memRead t.sp →
        ∃ v, exec .ret u = .next v ∧ v.pc = s.pc + 2 ∧ v.sp = s.sp

/-- A jump without a call: LDI Rk, t; PUSH Rk; RET ends with `pc = t` and SP unchanged (42_handlers R128). -/
def Obligations.LoadPushReturnJumps : Prop :=
  ∀ (s : State) (k target : Byte), k.toNat ≤ 7 → 1 ≤ s.sp.toNat → s.sp.toNat ≤ 244 →
    ∃ t u v, exec (.ldi k target) s = .next t ∧ exec (.push k) t = .next u ∧ exec .ret u = .next v ∧
      v.pc = target.toNat ∧ v.sp = s.sp

/-! ## State, memory and reset -/

/-- The registers are eight distinct cells: a write is read back, and changes no other register and nothing else
(10_state R21). -/
def Obligations.RegistersAreDistinctCells : Prop :=
  ∀ (s : State) (i j : Fin 8) (v : Byte), (s.setReg i v).reg j = (if j = i then v else s.reg j) ∧
    KeepsOutside [.reg i] s (s.setReg i v)

/-- A byte write is read back at its address and changes nothing else, and writing the same byte twice leaves the same state
as writing it once (20_memory R42). -/
def Obligations.MemoryWriteChangesOneCell : Prop :=
  ∀ (s : State) (addr v : Byte), (s.memWrite addr v).memRead addr = v ∧ KeepsOutside [.cell addr] s (s.memWrite addr v) ∧
    (s.memWrite addr v).memWrite addr v = s.memWrite addr v

/-- Two memories in canonical form that read the same everywhere are the same data (the model's own form, notes/assumptions 7). -/
def Obligations.CanonicalMemoriesWithEqualReadsAreEqual : Prop :=
  ∀ m n : Memory, m.wf → n.wf → (∀ addr, m.read addr = n.read addr) → m = n

/-- The state after reset, for every REG_RESET and CALL_TARGET_MODE and whatever the unspecified fields hold (70_reset R180; the
values of `pc` and FL are D12 and D14). -/
def Obligations.ResetValues : Prop :=
  ∀ c : Config, let s := State.resetWith c
    (∀ addr, s.memRead addr = 0) ∧ s.reg 7 = 244 ∧ (∀ i : Fin 7, s.reg i.castSucc = c.regReset[i]) ∧ s.sp = 244 ∧
    s.fl = 0x00 ∧ s.pc = 0 ∧ s.status = .running ∧ s.fault.cause = .none ∧ s.out = [] ∧ s.callTargetMode = c.callTargetMode

/-- After reset and the load, the image's bytes stand at addresses 0, 1, 2 and so on, and every other cell is 0
(20_memory R44). -/
def Obligations.BootFillsMemoryWithTheImage : Prop :=
  ∀ (c : Config) (image : List Byte), image.length ≤ 256 →
    ∃ s, boot c image = .ok s ∧ ∀ addr : Byte, s.memRead addr = image[addr.toNat]?.getD 0

/-- The load changes memory alone, and an image of more than 256 bytes is the loader's error, without a state (70_reset R181,
D23). -/
def Obligations.LoadWritesOnlyTheImage : Prop :=
  ∀ (image : List Byte) (s : State),
    (image.length ≤ 256 → ∃ t, loadImage image s = .ok t ∧ { t with mem := s.mem } = s ∧
      ∀ addr : Byte, t.memRead addr = image[addr.toNat]?.getD (s.memRead addr)) ∧
    (256 < image.length → loadImage image s = .error .imageTooLong)

/-- The invariant holds after reset, for every value of the parameters (70_reset R180). Its clause on memory, the canonical
form of the list, is the model's choice (notes/assumptions 7). -/
def Obligations.ResetMeetsTheInvariant : Prop :=
  (∀ c : Config, (State.resetWith c).Inv) ∧ State.reset.Inv

/-- Every step keeps the invariant: `pc` in 0..256, SP in 0..244, FL with at most one flag, and a fault record that says what
happened (10_state R26, R29, R31, R34, R35; 60_exceptions R151, R154); and memory in canonical form, a clause about the model's
own list that is the model's choice (notes/assumptions 7). -/
def Obligations.StepKeepsTheInvariant : Prop :=
  ∀ s t : State, s.Inv → step s = .next t → t.Inv
end

