-- ==== Sys2Proof/Laws/State.lean ====
section
/-! SUPPORT. One lemma per field per update of the state. -/

namespace Sys2Proof.Machine

@[simp] theorem State.setReg_regs (s : State) (i : Fin 8) (v : Byte) : (s.setReg i v).regs = s.regs.set i v := rfl
@[simp] theorem State.setReg_pc (s : State) (i : Fin 8) (v : Byte) : (s.setReg i v).pc = s.pc := rfl
@[simp] theorem State.setReg_sp (s : State) (i : Fin 8) (v : Byte) : (s.setReg i v).sp = s.sp := rfl
@[simp] theorem State.setReg_fl (s : State) (i : Fin 8) (v : Byte) : (s.setReg i v).fl = s.fl := rfl
@[simp] theorem State.setReg_status (s : State) (i : Fin 8) (v : Byte) : (s.setReg i v).status = s.status := rfl
@[simp] theorem State.setReg_fault (s : State) (i : Fin 8) (v : Byte) : (s.setReg i v).fault = s.fault := rfl
@[simp] theorem State.setReg_out (s : State) (i : Fin 8) (v : Byte) : (s.setReg i v).out = s.out := rfl
@[simp] theorem State.setReg_mem (s : State) (i : Fin 8) (v : Byte) : (s.setReg i v).mem = s.mem := rfl
@[simp] theorem State.setReg_callTargetMode (s : State) (i : Fin 8) (v : Byte) : (s.setReg i v).callTargetMode = s.callTargetMode := rfl

@[simp] theorem State.memWrite_regs (s : State) (addr v : Byte) : (s.memWrite addr v).regs = s.regs := rfl
@[simp] theorem State.memWrite_pc (s : State) (addr v : Byte) : (s.memWrite addr v).pc = s.pc := rfl
@[simp] theorem State.memWrite_sp (s : State) (addr v : Byte) : (s.memWrite addr v).sp = s.sp := rfl
@[simp] theorem State.memWrite_fl (s : State) (addr v : Byte) : (s.memWrite addr v).fl = s.fl := rfl
@[simp] theorem State.memWrite_status (s : State) (addr v : Byte) : (s.memWrite addr v).status = s.status := rfl
@[simp] theorem State.memWrite_fault (s : State) (addr v : Byte) : (s.memWrite addr v).fault = s.fault := rfl
@[simp] theorem State.memWrite_out (s : State) (addr v : Byte) : (s.memWrite addr v).out = s.out := rfl
@[simp] theorem State.memWrite_mem (s : State) (addr v : Byte) : (s.memWrite addr v).mem = s.mem.write addr v := rfl
@[simp] theorem State.memWrite_callTargetMode (s : State) (addr v : Byte) : (s.memWrite addr v).callTargetMode = s.callTargetMode := rfl

@[simp] theorem State.setSp_regs (s : State) (v : Byte) : (s.setSp v).regs = s.regs := rfl
@[simp] theorem State.setSp_pc (s : State) (v : Byte) : (s.setSp v).pc = s.pc := rfl
@[simp] theorem State.setSp_sp (s : State) (v : Byte) : (s.setSp v).sp = v := rfl
@[simp] theorem State.setSp_fl (s : State) (v : Byte) : (s.setSp v).fl = s.fl := rfl
@[simp] theorem State.setSp_status (s : State) (v : Byte) : (s.setSp v).status = s.status := rfl
@[simp] theorem State.setSp_fault (s : State) (v : Byte) : (s.setSp v).fault = s.fault := rfl
@[simp] theorem State.setSp_out (s : State) (v : Byte) : (s.setSp v).out = s.out := rfl
@[simp] theorem State.setSp_mem (s : State) (v : Byte) : (s.setSp v).mem = s.mem := rfl
@[simp] theorem State.setSp_callTargetMode (s : State) (v : Byte) : (s.setSp v).callTargetMode = s.callTargetMode := rfl

@[simp] theorem State.setFl_regs (s : State) (v : Byte) : (s.setFl v).regs = s.regs := rfl
@[simp] theorem State.setFl_pc (s : State) (v : Byte) : (s.setFl v).pc = s.pc := rfl
@[simp] theorem State.setFl_sp (s : State) (v : Byte) : (s.setFl v).sp = s.sp := rfl
@[simp] theorem State.setFl_fl (s : State) (v : Byte) : (s.setFl v).fl = v := rfl
@[simp] theorem State.setFl_status (s : State) (v : Byte) : (s.setFl v).status = s.status := rfl
@[simp] theorem State.setFl_fault (s : State) (v : Byte) : (s.setFl v).fault = s.fault := rfl
@[simp] theorem State.setFl_out (s : State) (v : Byte) : (s.setFl v).out = s.out := rfl
@[simp] theorem State.setFl_mem (s : State) (v : Byte) : (s.setFl v).mem = s.mem := rfl
@[simp] theorem State.setFl_callTargetMode (s : State) (v : Byte) : (s.setFl v).callTargetMode = s.callTargetMode := rfl

@[simp] theorem State.setPc_regs (s : State) (n : Nat) : (s.setPc n).regs = s.regs := rfl
@[simp] theorem State.setPc_pc (s : State) (n : Nat) : (s.setPc n).pc = n := rfl
@[simp] theorem State.setPc_sp (s : State) (n : Nat) : (s.setPc n).sp = s.sp := rfl
@[simp] theorem State.setPc_fl (s : State) (n : Nat) : (s.setPc n).fl = s.fl := rfl
@[simp] theorem State.setPc_status (s : State) (n : Nat) : (s.setPc n).status = s.status := rfl
@[simp] theorem State.setPc_fault (s : State) (n : Nat) : (s.setPc n).fault = s.fault := rfl
@[simp] theorem State.setPc_out (s : State) (n : Nat) : (s.setPc n).out = s.out := rfl
@[simp] theorem State.setPc_mem (s : State) (n : Nat) : (s.setPc n).mem = s.mem := rfl
@[simp] theorem State.setPc_callTargetMode (s : State) (n : Nat) : (s.setPc n).callTargetMode = s.callTargetMode := rfl

@[simp] theorem State.emit_regs (s : State) (v : Byte) : (s.emit v).regs = s.regs := rfl
@[simp] theorem State.emit_pc (s : State) (v : Byte) : (s.emit v).pc = s.pc := rfl
@[simp] theorem State.emit_sp (s : State) (v : Byte) : (s.emit v).sp = s.sp := rfl
@[simp] theorem State.emit_fl (s : State) (v : Byte) : (s.emit v).fl = s.fl := rfl
@[simp] theorem State.emit_status (s : State) (v : Byte) : (s.emit v).status = s.status := rfl
@[simp] theorem State.emit_fault (s : State) (v : Byte) : (s.emit v).fault = s.fault := rfl
@[simp] theorem State.emit_out (s : State) (v : Byte) : (s.emit v).out = s.out ++ [v] := rfl
@[simp] theorem State.emit_mem (s : State) (v : Byte) : (s.emit v).mem = s.mem := rfl
@[simp] theorem State.emit_callTargetMode (s : State) (v : Byte) : (s.emit v).callTargetMode = s.callTargetMode := rfl

@[simp] theorem State.halt_regs (s : State) : (s.halt).regs = s.regs := rfl
@[simp] theorem State.halt_pc (s : State) : (s.halt).pc = s.pc := rfl
@[simp] theorem State.halt_sp (s : State) : (s.halt).sp = s.sp := rfl
@[simp] theorem State.halt_fl (s : State) : (s.halt).fl = s.fl := rfl
@[simp] theorem State.halt_status (s : State) : (s.halt).status = .halted := rfl
@[simp] theorem State.halt_fault (s : State) : (s.halt).fault = s.fault := rfl
@[simp] theorem State.halt_out (s : State) : (s.halt).out = s.out := rfl
@[simp] theorem State.halt_mem (s : State) : (s.halt).mem = s.mem := rfl
@[simp] theorem State.halt_callTargetMode (s : State) : (s.halt).callTargetMode = s.callTargetMode := rfl

@[simp] theorem State.pushByte_regs (s : State) (v : Byte) : (s.pushByte v).regs = s.regs := rfl
@[simp] theorem State.pushByte_pc (s : State) (v : Byte) : (s.pushByte v).pc = s.pc := rfl
@[simp] theorem State.pushByte_sp (s : State) (v : Byte) : (s.pushByte v).sp = s.pushAddr := rfl
@[simp] theorem State.pushByte_fl (s : State) (v : Byte) : (s.pushByte v).fl = s.fl := rfl
@[simp] theorem State.pushByte_status (s : State) (v : Byte) : (s.pushByte v).status = s.status := rfl
@[simp] theorem State.pushByte_fault (s : State) (v : Byte) : (s.pushByte v).fault = s.fault := rfl
@[simp] theorem State.pushByte_out (s : State) (v : Byte) : (s.pushByte v).out = s.out := rfl
@[simp] theorem State.pushByte_mem (s : State) (v : Byte) : (s.pushByte v).mem = s.mem.write s.pushAddr v := rfl
@[simp] theorem State.pushByte_callTargetMode (s : State) (v : Byte) : (s.pushByte v).callTargetMode = s.callTargetMode := rfl

@[simp] theorem State.dropTop_regs (s : State) : (s.dropTop).regs = s.regs := rfl
@[simp] theorem State.dropTop_pc (s : State) : (s.dropTop).pc = s.pc := rfl
@[simp] theorem State.dropTop_sp (s : State) : (s.dropTop).sp = s.sp + 1 := rfl
@[simp] theorem State.dropTop_fl (s : State) : (s.dropTop).fl = s.fl := rfl
@[simp] theorem State.dropTop_status (s : State) : (s.dropTop).status = s.status := rfl
@[simp] theorem State.dropTop_fault (s : State) : (s.dropTop).fault = s.fault := rfl
@[simp] theorem State.dropTop_out (s : State) : (s.dropTop).out = s.out := rfl
@[simp] theorem State.dropTop_mem (s : State) : (s.dropTop).mem = s.mem := rfl
@[simp] theorem State.dropTop_callTargetMode (s : State) : (s.dropTop).callTargetMode = s.callTargetMode := rfl

@[simp] theorem raise_regs (cause : FaultCause) (op : Option Byte) (s : State) : (raise cause op s).regs = s.regs := rfl
@[simp] theorem raise_pc (cause : FaultCause) (op : Option Byte) (s : State) : (raise cause op s).pc = s.pc := rfl
@[simp] theorem raise_sp (cause : FaultCause) (op : Option Byte) (s : State) : (raise cause op s).sp = s.sp := rfl
@[simp] theorem raise_fl (cause : FaultCause) (op : Option Byte) (s : State) : (raise cause op s).fl = s.fl := rfl
@[simp] theorem raise_status (cause : FaultCause) (op : Option Byte) (s : State) : (raise cause op s).status = .faulted := rfl
@[simp] theorem raise_fault (cause : FaultCause) (op : Option Byte) (s : State) : (raise cause op s).fault = ⟨cause, s.pc, op⟩ := rfl
@[simp] theorem raise_out (cause : FaultCause) (op : Option Byte) (s : State) : (raise cause op s).out = s.out := rfl
@[simp] theorem raise_mem (cause : FaultCause) (op : Option Byte) (s : State) : (raise cause op s).mem = s.mem := rfl
@[simp] theorem raise_callTargetMode (cause : FaultCause) (op : Option Byte) (s : State) : (raise cause op s).callTargetMode = s.callTargetMode := rfl

@[simp] theorem State.resetWith_regs (c : Config) : (State.resetWith c).regs = c.regReset.push spInit := rfl
@[simp] theorem State.resetWith_pc (c : Config) : (State.resetWith c).pc = 0 := rfl
@[simp] theorem State.resetWith_sp (c : Config) : (State.resetWith c).sp = spInit := rfl
@[simp] theorem State.resetWith_fl (c : Config) : (State.resetWith c).fl = 0 := rfl
@[simp] theorem State.resetWith_status (c : Config) : (State.resetWith c).status = .running := rfl
@[simp] theorem State.resetWith_fault (c : Config) : (State.resetWith c).fault = ⟨.none, c.faultPcReset, c.faultOpcodeReset⟩ := rfl
@[simp] theorem State.resetWith_out (c : Config) : (State.resetWith c).out = [] := rfl
@[simp] theorem State.resetWith_mem (c : Config) : (State.resetWith c).mem = [] := rfl
@[simp] theorem State.resetWith_callTargetMode (c : Config) : (State.resetWith c).callTargetMode = c.callTargetMode := rfl

@[simp] theorem State.reg_setReg_same (s : State) (i : Fin 8) (v : Byte) : (s.setReg i v).reg i = v := by
  simp [State.reg, State.setReg]

theorem State.reg_setReg_other (s : State) {i j : Fin 8} (v : Byte) (h : j ≠ i) : (s.setReg i v).reg j = s.reg j := by
  have h' : (i : Nat) ≠ j := fun e => h (Fin.ext e.symm)
  simp [State.reg, State.setReg, h']

/-- A register reads the same in states with the same register file. -/
theorem State.reg_congr {s t : State} (h : t.regs = s.regs) (i : Fin 8) : t.reg i = s.reg i := by
  simp [State.reg, h]

/-- A cell reads the same in states with the same memory. -/
theorem State.memRead_congr {s t : State} (h : t.mem = s.mem) (addr : Byte) : t.memRead addr = s.memRead addr := by
  simp [State.memRead, h]

end Sys2Proof.Machine
end

