-- ==== Sys2Proof/Laws/Memory.lean ====
section
/-! SUPPORT. The laws of memory: read after write, and that every operation keeps the canonical form. -/

namespace Sys2Proof.Machine

theorem Memory.readAt_eraseAt (m : Memory) (j k : Nat) :
    (m.eraseAt j).readAt k = if k = j then 0 else m.readAt k := by
  induction m with
  | nil => simp [Memory.eraseAt, Memory.readAt]
  | cons c m ih =>
    obtain ⟨key, w⟩ := c
    simp only [Memory.eraseAt, List.filter_cons] at ih ⊢
    by_cases hj : key = j
    · subst hj
      simp only [bne_self_eq_false, Bool.false_eq_true, if_false, ih, Memory.readAt]
      by_cases hk : k = key
      · simp [hk]
      · simp [hk, Ne.symm hk]
    · simp only [bne_iff_ne, ne_eq, hj, not_false_eq_true, if_true, Memory.readAt, ih]
      by_cases hk : key = k
      · subst hk; simp [hj]
      · simp [hk]

theorem Memory.readAt_insertAt (m : Memory) (j k : Nat) (v : Byte) (h : ∀ c ∈ m, c.1 ≠ j) :
    (m.insertAt j v).readAt k = if k = j then v else m.readAt k := by
  induction m with
  | nil => simp [Memory.insertAt, Memory.readAt, eq_comm]
  | cons c m ih =>
    obtain ⟨key, w⟩ := c
    have hkey : key ≠ j := h (key, w) (by simp)
    have ih := ih fun c hc => h c (by simp [hc])
    by_cases hlt : key < j
    · simp only [Memory.insertAt, hlt, if_true, Memory.readAt, ih]
      by_cases hk : key = k
      · subst hk; simp [hkey]
      · simp [hk]
    · simp only [Memory.insertAt, hlt, if_false, Memory.readAt]
      by_cases hk : k = j
      · simp [hk]
      · simp [hk, Ne.symm hk]

theorem Memory.key_ne_of_mem_eraseAt (m : Memory) (j : Nat) : ∀ c ∈ m.eraseAt j, c.1 ≠ j := by
  intro c hc
  have := (List.mem_filter.mp hc).2
  simpa using this

/-- A read after a write gives the written byte at that address and what was there elsewhere (20_memory R42). -/
theorem Memory.read_write (m : Memory) (addr addr' v : Byte) :
    (m.write addr v).read addr' = if addr' = addr then v else m.read addr' := by
  have heq : (addr'.toNat = addr.toNat) ↔ addr' = addr := BitVec.toNat_inj
  unfold Memory.write Memory.read
  split
  · next hv => rw [Memory.readAt_eraseAt]; simp only [heq]; split <;> simp [hv]
  · rw [Memory.readAt_insertAt _ _ _ _ (Memory.key_ne_of_mem_eraseAt m _), Memory.readAt_eraseAt]
    simp only [heq]
    split <;> simp_all

theorem State.memRead_memWrite (s : State) (addr addr' v : Byte) :
    (s.memWrite addr v).memRead addr' = if addr' = addr then v else s.memRead addr' :=
  Memory.read_write _ _ _ _

@[simp] theorem State.memRead_memWrite_same (s : State) (addr v : Byte) : (s.memWrite addr v).memRead addr = v := by
  simp [State.memRead_memWrite]

theorem State.memRead_memWrite_other (s : State) {addr addr' : Byte} (v : Byte) (h : addr' ≠ addr) :
    (s.memWrite addr v).memRead addr' = s.memRead addr' := by
  simp [State.memRead_memWrite, h]

theorem State.memRead_pushByte (s : State) (v addr : Byte) :
    (s.pushByte v).memRead addr = if addr = s.pushAddr then v else s.memRead addr :=
  Memory.read_write _ _ _ _

theorem Memory.wf_nil : Memory.wf [] := by simp [Memory.wf]

theorem Memory.wf_eraseAt {m : Memory} (h : m.wf) (k : Nat) : (m.eraseAt k).wf :=
  ⟨h.1.filter _, fun c hc => h.2 c (List.mem_filter.mp hc).1⟩

theorem Memory.mem_insertAt {m : Memory} {k : Nat} {v : Byte} {c : Host.Cell} (h : c ∈ m.insertAt k v) :
    c = (k, v) ∨ c ∈ m := by
  induction m with
  | nil => simpa [Memory.insertAt] using h
  | cons d m ih =>
    obtain ⟨key, w⟩ := d
    simp only [Memory.insertAt] at h
    split at h
    · rcases List.mem_cons.mp h with h | h
      · exact .inr (by simp [h])
      · exact (ih h).imp_right (List.mem_cons_of_mem _)
    · simpa using h

theorem Memory.wf_insertAt {m : Memory} (h : m.wf) {k : Nat} {v : Byte} (hk : k < 256) (hv : v ≠ 0)
    (hne : ∀ c ∈ m, c.1 ≠ k) : (m.insertAt k v).wf := by
  refine ⟨?_, fun c hc => ?_⟩
  · have hp := h.1
    clear h
    induction m with
    | nil => simp [Memory.insertAt]
    | cons d m ih =>
      obtain ⟨key, w⟩ := d
      obtain ⟨h1, h2⟩ := List.pairwise_cons.mp hp
      have hkey : key ≠ k := hne (key, w) (by simp)
      simp only [Memory.insertAt]
      split
      · next hlt =>
        refine List.pairwise_cons.mpr ⟨fun c hc => ?_, ih (fun c hc => hne c (by simp [hc])) h2⟩
        rcases Memory.mem_insertAt hc with rfl | hc
        · exact hlt
        · exact h1 c hc
      · next hlt =>
        have hlt : k < key := by omega
        refine List.pairwise_cons.mpr ⟨fun c hc => ?_, hp⟩
        rcases List.mem_cons.mp hc with rfl | hc
        · exact hlt
        · exact hlt.trans (h1 c hc)
  · rcases Memory.mem_insertAt hc with rfl | hc
    · exact ⟨hk, hv⟩
    · exact h.2 c hc

/-- Writing a byte keeps the canonical form. -/
theorem Memory.wf_write {m : Memory} (h : m.wf) (addr v : Byte) : (m.write addr v).wf := by
  unfold Memory.write
  split
  · exact Memory.wf_eraseAt h _
  · next hv => exact Memory.wf_insertAt (Memory.wf_eraseAt h _) addr.isLt hv (Memory.key_ne_of_mem_eraseAt m _)

theorem State.wf_storeBytes {s : State} (h : s.mem.wf) (addr : Nat) (bytes : List Byte) :
    (s.storeBytes addr bytes).mem.wf := by
  induction bytes generalizing s addr with
  | nil => exact h
  | cons b bytes ih =>
    refine ih ?_ _
    split
    · exact Memory.wf_write h _ _
    · exact h

/-- Storing a run of bytes changes the memory alone. -/
theorem State.storeBytes_eq (s : State) (addr : Nat) (bytes : List Byte) :
    s.storeBytes addr bytes = { s with mem := (s.storeBytes addr bytes).mem } := by
  induction bytes generalizing s addr with
  | nil => rfl
  | cons b bytes ih =>
    simp only [State.storeBytes]
    rw [ih]
    split <;> rfl

/-- Each cell after a run of bytes that fits below 256 is stored: the byte of the run, or what it held (70_reset R181). -/
theorem State.memRead_storeBytes (bytes : List Byte) (s : State) (k : Nat) (addr : Byte) (hfit : k + bytes.length ≤ 256) :
    (s.storeBytes k bytes).memRead addr =
      if k ≤ addr.toNat then bytes[addr.toNat - k]?.getD (s.memRead addr) else s.memRead addr := by
  induction bytes generalizing s k with
  | nil => simp [State.storeBytes]
  | cons b bytes ih =>
    simp only [List.length_cons] at hfit
    have hk : k ≤ 255 := by omega
    have hiff : addr = BitVec.ofNat 8 k ↔ addr.toNat = k := by
      rw [← BitVec.toNat_inj, BitVec.toNat_ofNat]
      omega
    simp only [State.storeBytes, hk, if_true]
    rw [ih _ _ (by omega), State.memRead_memWrite]
    rcases lt_trichotomy addr.toNat k with hl | hl | hl
    · rw [if_neg (by omega), if_neg (by rw [hiff]; omega), if_neg (by omega)]
    · rw [if_neg (by omega), if_pos (hiff.mpr hl), if_pos (by omega)]
      simp [hl]
    · rw [if_pos (by omega), if_neg (by rw [hiff]; omega), if_pos (by omega),
        show addr.toNat - k = (addr.toNat - (k + 1)) + 1 by omega, List.getElem?_cons_succ]

end Sys2Proof.Machine
end

