-- ==== Sys2Proof/Laws/Decode.lean ====
section
/-! SUPPORT. The laws of the opcode map and of the bytes the decoder reads. -/

namespace Sys2Proof

/-- No two rows of the opcode map have the same byte. -/
theorem opcodeTable_distinct : opcodeTable.Pairwise fun r q => r.opcode ≠ q.opcode := by decide

/-- What the map can answer: one of the eleven rows (30_encoding R69). -/
theorem lookup_cases {op : Byte} {f : Format} (h : lookup op = some f) :
    (op = opHLT ∧ f = .n0 .hlt) ∨ (op = opLDI ∧ f = .n2 .ldi) ∨ (op = opPRN ∧ f = .n1 .prn) ∨
    (op = opPUSH ∧ f = .n1 .push) ∨ (op = opPOP ∧ f = .n1 .pop) ∨ (op = opCALL ∧ f = .n1 .call) ∨
    (op = opRET ∧ f = .n0 .ret) ∨ (op = opADD ∧ f = .n2 .add) ∨ (op = opSUB ∧ f = .n2 .sub) ∨
    (op = opMUL ∧ f = .n2 .mul) ∨ (op = opCMP ∧ f = .n2 .cmp) := by
  unfold lookup at h
  obtain ⟨row, hrow, rfl⟩ := Option.map_eq_some_iff.mp h
  have heq : row.opcode = op := by simpa using List.find?_some hrow
  have hmem := List.mem_of_find?_eq_some hrow
  subst heq
  simp only [opcodeTable, List.mem_cons, List.not_mem_nil, or_false] at hmem
  rcases hmem with rfl | rfl | rfl | rfl | rfl | rfl | rfl | rfl | rfl | rfl | rfl <;> simp

/-- An opcode byte is in the map exactly when it is one of the eleven. -/
theorem lookup_eq_none_iff (op : Byte) :
    lookup op = none ↔ op ∉ [opHLT, opLDI, opPRN, opPUSH, opPOP, opCALL, opRET, opADD, opSUB, opMUL, opCMP] := by
  simp only [lookup, Option.map_eq_none_iff, List.find?_eq_none, beq_iff_eq]
  simp only [opcodeTable, List.not_mem_nil, List.mem_cons, not_or]
  simp [eq_comm]

@[simp] theorem encode_ne_nil (i : Instr) : encode i ≠ [] := by cases i <;> simp [encode]

theorem encode_length_le (i : Instr) : (encode i).length ≤ maxLength := by cases i <;> simp [encode, maxLength]

/-! The fields of the eleven opcode bytes (30_encoding R69). -/

@[simp] theorem fields_hlt : numOperands (opcode .hlt) = 0 ∧ isAluOp (opcode .hlt) = false ∧ setsPc (opcode .hlt) = false :=
  (by decide : numOperands opHLT = 0 ∧ isAluOp opHLT = false ∧ setsPc opHLT = false)
@[simp] theorem fields_ldi (a b : Byte) : numOperands (opcode (.ldi a b)) = 2 ∧ isAluOp (opcode (.ldi a b)) = false ∧ setsPc (opcode (.ldi a b)) = false :=
  (by decide : numOperands opLDI = 2 ∧ isAluOp opLDI = false ∧ setsPc opLDI = false)
@[simp] theorem fields_prn (a : Byte) : numOperands (opcode (.prn a)) = 1 ∧ isAluOp (opcode (.prn a)) = false ∧ setsPc (opcode (.prn a)) = false :=
  (by decide : numOperands opPRN = 1 ∧ isAluOp opPRN = false ∧ setsPc opPRN = false)
@[simp] theorem fields_push (a : Byte) : numOperands (opcode (.push a)) = 1 ∧ isAluOp (opcode (.push a)) = false ∧ setsPc (opcode (.push a)) = false :=
  (by decide : numOperands opPUSH = 1 ∧ isAluOp opPUSH = false ∧ setsPc opPUSH = false)
@[simp] theorem fields_pop (a : Byte) : numOperands (opcode (.pop a)) = 1 ∧ isAluOp (opcode (.pop a)) = false ∧ setsPc (opcode (.pop a)) = false :=
  (by decide : numOperands opPOP = 1 ∧ isAluOp opPOP = false ∧ setsPc opPOP = false)
@[simp] theorem fields_call (a : Byte) : numOperands (opcode (.call a)) = 1 ∧ isAluOp (opcode (.call a)) = false ∧ setsPc (opcode (.call a)) = true :=
  (by decide : numOperands opCALL = 1 ∧ isAluOp opCALL = false ∧ setsPc opCALL = true)
@[simp] theorem fields_ret : numOperands (opcode .ret) = 0 ∧ isAluOp (opcode .ret) = false ∧ setsPc (opcode .ret) = true :=
  (by decide : numOperands opRET = 0 ∧ isAluOp opRET = false ∧ setsPc opRET = true)
@[simp] theorem fields_add (a b : Byte) : numOperands (opcode (.add a b)) = 2 ∧ isAluOp (opcode (.add a b)) = true ∧ setsPc (opcode (.add a b)) = false :=
  (by decide : numOperands opADD = 2 ∧ isAluOp opADD = true ∧ setsPc opADD = false)
@[simp] theorem fields_sub (a b : Byte) : numOperands (opcode (.sub a b)) = 2 ∧ isAluOp (opcode (.sub a b)) = true ∧ setsPc (opcode (.sub a b)) = false :=
  (by decide : numOperands opSUB = 2 ∧ isAluOp opSUB = true ∧ setsPc opSUB = false)
@[simp] theorem fields_mul (a b : Byte) : numOperands (opcode (.mul a b)) = 2 ∧ isAluOp (opcode (.mul a b)) = true ∧ setsPc (opcode (.mul a b)) = false :=
  (by decide : numOperands opMUL = 2 ∧ isAluOp opMUL = true ∧ setsPc opMUL = false)
@[simp] theorem fields_cmp (a b : Byte) : numOperands (opcode (.cmp a b)) = 2 ∧ isAluOp (opcode (.cmp a b)) = true ∧ setsPc (opcode (.cmp a b)) = false :=
  (by decide : numOperands opCMP = 2 ∧ isAluOp opCMP = true ∧ setsPc opCMP = false)

theorem numOperands_opcode_le (i : Instr) : numOperands (opcode i) ≤ 2 := by
  cases i <;> simp

namespace Machine

@[simp] theorem regIndex_eq_some_iff (a : Byte) (i : Fin 8) : regIndex a = some i ↔ a.toNat = i := by
  unfold regIndex
  split
  · simp [Fin.ext_iff]
  · next h => simp only [reduceCtorEq, false_iff]; omega

@[simp] theorem regIndex_eq_none_iff (a : Byte) : regIndex a = none ↔ 7 < a.toNat := by
  unfold regIndex
  split <;> simp <;> omega

/-- The bytes from `pc` on, while at least three are left. -/
theorem fetchBytes_of_le (s : State) (h : s.pc ≤ 253) :
    fetchBytes s = [s.memRead (BitVec.ofNat 8 s.pc), s.memRead (BitVec.ofNat 8 (s.pc + 1)),
      s.memRead (BitVec.ofNat 8 (s.pc + 2))] := by
  have h0 : s.pc ≤ 255 := by omega
  have h1 : s.pc + 1 ≤ 255 := by omega
  have h2 : s.pc + 2 ≤ 255 := by omega
  simp [fetchBytes, maxLength, List.range_succ, h0, h1, h2]

theorem fetchBytes_254 (s : State) (h : s.pc = 254) :
    fetchBytes s = [s.memRead (BitVec.ofNat 8 s.pc), s.memRead (BitVec.ofNat 8 (s.pc + 1))] := by
  simp [fetchBytes, maxLength, List.range_succ, h]

theorem fetchBytes_255 (s : State) (h : s.pc = 255) : fetchBytes s = [s.memRead (BitVec.ofNat 8 s.pc)] := by
  simp [fetchBytes, maxLength, List.range_succ, h]

theorem fetchBytes_past (s : State) (h : 255 < s.pc) : fetchBytes s = [] := by
  have h0 : ¬ s.pc ≤ 255 := by omega
  have h1 : ¬ s.pc + 1 ≤ 255 := by omega
  have h2 : ¬ s.pc + 2 ≤ 255 := by omega
  simp [fetchBytes, maxLength, List.range_succ, h0, h1, h2]

/-- While `pc` is an address, the bytes read start with the cell there. -/
theorem fetchBytes_head (s : State) (h : s.pc ≤ 255) :
    ∃ rest, fetchBytes s = s.memRead (BitVec.ofNat 8 s.pc) :: rest := by
  have : s.pc ≤ 253 ∨ s.pc = 254 ∨ s.pc = 255 := by omega
  rcases this with h | h | h
  · exact ⟨_, fetchBytes_of_le s h⟩
  · exact ⟨_, fetchBytes_254 s h⟩
  · exact ⟨_, fetchBytes_255 s h⟩

/-- The byte fetched at position `k`. -/
theorem fetchBytes_getElem? (s : State) (k : Nat) (hk : k < maxLength) (h : s.pc + k ≤ 255) :
    (fetchBytes s)[k]? = some (s.memRead (BitVec.ofNat 8 (s.pc + k))) := by
  have hcases : s.pc ≤ 253 ∨ s.pc = 254 ∨ s.pc = 255 := by omega
  simp only [maxLength] at hk
  have hk3 : k = 0 ∨ k = 1 ∨ k = 2 := by omega
  rcases hcases with h' | h' | h'
  · rw [fetchBytes_of_le s h']
    rcases hk3 with rfl | rfl | rfl <;> simp
  · rw [fetchBytes_254 s h']
    rcases hk3 with rfl | rfl | rfl
    · simp
    · simp
    · omega
  · rw [fetchBytes_255 s h']
    rcases hk3 with rfl | rfl | rfl
    · simp
    · omega
    · omega

theorem fetchBytes_length (s : State) : (fetchBytes s).length = min maxLength (256 - s.pc) := by
  have hcases : s.pc ≤ 253 ∨ s.pc = 254 ∨ s.pc = 255 ∨ 255 < s.pc := by omega
  rcases hcases with h | h | h | h
  · rw [fetchBytes_of_le s h]; simp [maxLength]; omega
  · rw [fetchBytes_254 s h]; simp [maxLength]; omega
  · rw [fetchBytes_255 s h]; simp [maxLength]; omega
  · rw [fetchBytes_past s h]; simp [maxLength]; omega

end Machine

end Sys2Proof
end

