-- ==== Sys2Proof/Laws/PerInstr.lean ====
section
/-! SUPPORT. Facts about every instruction as syntax, one lemma per constructor. -/

namespace Sys2Proof.Laws.OperandCount

/-- The bytes of an instruction are its opcode and as many operand bytes as the opcode's bits 7:6 say (30_encoding R60, R62). -/
def Statement (i : Instr) : Prop :=
  ∃ operands : List Byte, encode i = opcode i :: operands ∧ operands.length = numOperands (opcode i)

theorem hlt : Statement .hlt := ⟨[], rfl, (by decide : 0 = numOperands opHLT)⟩
theorem ldi (a b : Byte) : Statement (.ldi a b) := ⟨[a, b], rfl, (by decide : 2 = numOperands opLDI)⟩
theorem prn (a : Byte) : Statement (.prn a) := ⟨[a], rfl, (by decide : 1 = numOperands opPRN)⟩
theorem push (a : Byte) : Statement (.push a) := ⟨[a], rfl, (by decide : 1 = numOperands opPUSH)⟩
theorem pop (a : Byte) : Statement (.pop a) := ⟨[a], rfl, (by decide : 1 = numOperands opPOP)⟩
theorem call (a : Byte) : Statement (.call a) := ⟨[a], rfl, (by decide : 1 = numOperands opCALL)⟩
theorem ret : Statement .ret := ⟨[], rfl, (by decide : 0 = numOperands opRET)⟩
theorem add (a b : Byte) : Statement (.add a b) := ⟨[a, b], rfl, (by decide : 2 = numOperands opADD)⟩
theorem sub (a b : Byte) : Statement (.sub a b) := ⟨[a, b], rfl, (by decide : 2 = numOperands opSUB)⟩
theorem mul (a b : Byte) : Statement (.mul a b) := ⟨[a, b], rfl, (by decide : 2 = numOperands opMUL)⟩
theorem cmp (a b : Byte) : Statement (.cmp a b) := ⟨[a, b], rfl, (by decide : 2 = numOperands opCMP)⟩

end Sys2Proof.Laws.OperandCount
end

