-- ==== Sys2Proof/Laws/Ops.lean ====
section
/-! SUPPORT. One lemma for each shared operation: everything it can do. -/

namespace Sys2Proof.Machine

/-- Fault entry writes the status and the record only (60_exceptions R154). -/
theorem raise_faultsWith (cause : FaultCause) (op : Option Byte) (s : State) : FaultsWith cause op s (raise cause op s) :=
  ⟨rfl, rfl, ⟨fun _ _ => rfl, fun _ _ => rfl, fun _ => rfl, fun _ => rfl, fun _ => rfl, by simp, by simp, fun _ => rfl, rfl⟩⟩

/-- A check line goes on or raises. -/
theorem check_cases (c : Prop) [Decidable c] (cause : FaultCause) (op : Byte) (s next : State) :
    (c ∧ check c cause op s next = next) ∨ (¬ c ∧ check c cause op s next = raise cause (some op) s) := by
  unfold check
  split
  · next h => exact .inl ⟨h, rfl⟩
  · next h => exact .inr ⟨h, rfl⟩

theorem check_of {c : Prop} [Decidable c] (h : c) (cause : FaultCause) (op : Byte) (s next : State) :
    check c cause op s next = next := if_pos h

theorem check_of_not {c : Prop} [Decidable c] (h : ¬ c) (cause : FaultCause) (op : Byte) (s next : State) :
    check c cause op s next = raise cause (some op) s := if_neg h

/-- A register check goes on with the register the byte names, or raises. -/
theorem checkReg_cases (op a : Byte) (s : State) (andThen : Fin 8 → State) :
    (∃ i : Fin 8, a.toNat = i ∧ checkReg op a s andThen = andThen i) ∨
    (7 < a.toNat ∧ checkReg op a s andThen = raise .outOfBoundsAccess (some op) s) := by
  unfold checkReg
  cases h : regIndex a with
  | some i => exact .inl ⟨i, (regIndex_eq_some_iff a i).mp h, rfl⟩
  | none => exact .inr ⟨(regIndex_eq_none_iff a).mp h, rfl⟩

theorem checkReg_of {a : Byte} {i : Fin 8} (h : a.toNat = i) (op : Byte) (s : State) (andThen : Fin 8 → State) :
    checkReg op a s andThen = andThen i := by
  simp [checkReg, (regIndex_eq_some_iff a i).mpr h]

theorem checkReg_of_gt {a : Byte} (h : 7 < a.toNat) (op : Byte) (s : State) (andThen : Fin 8 → State) :
    checkReg op a s andThen = raise .outOfBoundsAccess (some op) s := by
  simp [checkReg, (regIndex_eq_none_iff a).mpr h]

/-- The sequencer changes `pc` only, and nothing for CALL and RET (40_fetch R86). -/
theorem sequencer_eq (op : Byte) (pc0 : Nat) (s : State) :
    sequencer op pc0 s = s.setPc (if setsPc op then s.pc else pc0 + 1 + numOperands op) := by
  unfold sequencer
  split <;> rfl

theorem sequencer_hlt (pc0 : Nat) (s : State) : sequencer opHLT pc0 s = s.setPc (pc0 + 1) := rfl
theorem sequencer_ldi (pc0 : Nat) (s : State) : sequencer opLDI pc0 s = s.setPc (pc0 + 3) := rfl
theorem sequencer_prn (pc0 : Nat) (s : State) : sequencer opPRN pc0 s = s.setPc (pc0 + 2) := rfl
theorem sequencer_push (pc0 : Nat) (s : State) : sequencer opPUSH pc0 s = s.setPc (pc0 + 2) := rfl
theorem sequencer_pop (pc0 : Nat) (s : State) : sequencer opPOP pc0 s = s.setPc (pc0 + 2) := rfl
theorem sequencer_call (pc0 : Nat) (s : State) : sequencer opCALL pc0 s = s := rfl
theorem sequencer_ret (pc0 : Nat) (s : State) : sequencer opRET pc0 s = s := rfl

theorem flags_cases (x y : Byte) :
    (x.toNat < y.toNat ∧ compareFlags x y = 0x04) ∨ (y.toNat < x.toNat ∧ compareFlags x y = 0x02) ∨
    (x = y ∧ compareFlags x y = 0x01) := by
  unfold compareFlags
  split
  · next h => exact .inl ⟨h, rfl⟩
  · split
    · next h => exact .inr (.inl ⟨h, rfl⟩)
    · exact .inr (.inr ⟨BitVec.eq_of_toNat_eq (by omega), rfl⟩)

theorem byteOfInt_toNat (v : Int) : ((byteOfInt v).toNat : Int) = v % 256 := by
  simp [byteOfInt, BitVec.toNat_ofInt]
  omega

/-- The fault of a failed fetch is fault entry with a cause (40_fetch R88). -/
theorem fetchFault_raises (e : DecodeError) (s : State) :
    ∃ cause op, cause ≠ .none ∧ fetchFault e s = raise cause op s := by
  cases e <;> exact ⟨_, _, by decide, rfl⟩

/-- What the selected ALU operation leaves in each register (41_alu R101 to R104). -/
theorem aluWrite_reg_other (o : AluOp) {i j r : Fin 8} (h : r ≠ i) (s : State) : (aluWrite o i j s).reg r = s.reg r := by
  cases o <;> first | exact State.reg_setReg_other s _ h | rfl

end Sys2Proof.Machine
end

