-- ==== Sys2Proof/Laws/Exec.lean ====
section
/-! SUPPORT. One lemma for each instruction: everything its meaning can do, and under which operands and state. A fault
is fault entry from the state before it. -/

namespace Sys2Proof.Machine

/-- What the four ALU instructions can do (41_alu R100). -/
theorem execAlu_cases {op : Byte} {o : AluOp} (hop : aluOp op = some o) (a b : Byte) (s : State) :
    (∃ i j : Fin 8, a.toNat = i ∧ b.toNat = j ∧ execAlu op a b s = sequencer op s.pc (aluWrite o i j s)) ∨
    ((7 < a.toNat ∨ 7 < b.toNat) ∧ execAlu op a b s = raise .outOfBoundsAccess (some op) s) := by
  unfold execAlu
  rcases checkReg_cases op a s _ with ⟨i, hi, h⟩ | ⟨ha, h⟩
  · rw [h]
    rcases checkReg_cases op b s _ with ⟨j, hj, h⟩ | ⟨hb, h⟩
    · exact .inl ⟨i, j, hi, hj, by rw [h]; simp [hop]⟩
    · exact .inr ⟨.inr hb, h⟩
  · exact .inr ⟨.inl ha, h⟩

theorem exec_hlt (s : State) : exec .hlt s = .next (s.halt.setPc (s.pc + 1)) := rfl

theorem exec_ldi_cases (a b : Byte) (s : State) :
    (∃ i : Fin 8, a.toNat = i ∧ exec (.ldi a b) s = .next ((s.setReg i b).setPc (s.pc + 3))) ∨
    (7 < a.toNat ∧ exec (.ldi a b) s = .next (raise .outOfBoundsAccess (some opLDI) s)) := by
  simp only [exec, execLdi, sequencer_ldi]
  rcases checkReg_cases opLDI a s _ with ⟨i, hi, h⟩ | ⟨ha, h⟩
  · exact .inl ⟨i, hi, by rw [h]⟩
  · exact .inr ⟨ha, by rw [h]⟩

theorem exec_prn_cases (a : Byte) (s : State) :
    (∃ i : Fin 8, a.toNat = i ∧ exec (.prn a) s = .next ((s.emit (s.reg i)).setPc (s.pc + 2))) ∨
    (7 < a.toNat ∧ exec (.prn a) s = .next (raise .outOfBoundsAccess (some opPRN) s)) := by
  simp only [exec, execPrn, sequencer_prn]
  rcases checkReg_cases opPRN a s _ with ⟨i, hi, h⟩ | ⟨ha, h⟩
  · exact .inl ⟨i, hi, by rw [h]⟩
  · exact .inr ⟨ha, by rw [h]⟩

theorem exec_push_cases (a : Byte) (s : State) :
    (∃ i : Fin 8, a.toNat = i ∧ 1 ≤ s.sp.toNat ∧
      exec (.push a) s = .next ((s.pushByte (s.reg i)).setPc (s.pc + 2))) ∨
    ((7 < a.toNat ∨ s.sp.toNat = 0) ∧ exec (.push a) s = .next (raise .outOfBoundsAccess (some opPUSH) s)) := by
  simp only [exec, execPush, sequencer_push]
  rcases checkReg_cases opPUSH a s _ with ⟨i, hi, h⟩ | ⟨ha, h⟩
  · rw [h]
    rcases check_cases (1 ≤ s.sp.toNat) .outOfBoundsAccess opPUSH s _ with ⟨hc, h⟩ | ⟨hc, h⟩
    · exact .inl ⟨i, hi, hc, by rw [h]⟩
    · exact .inr ⟨.inr (by omega), by rw [h]⟩
  · exact .inr ⟨.inl ha, by rw [h]⟩

theorem exec_pop_cases (a : Byte) (s : State) :
    (∃ i : Fin 8, a.toNat = i ∧ s.sp.toNat ≤ 243 ∧
      exec (.pop a) s = .next (((s.setReg i s.top).dropTop).setPc (s.pc + 2))) ∨
    (7 < a.toNat ∧ exec (.pop a) s = .next (raise .outOfBoundsAccess (some opPOP) s)) ∨
    (a.toNat ≤ 7 ∧ 244 ≤ s.sp.toNat ∧ exec (.pop a) s = .next (raise .emptyStackUnderflow (some opPOP) s)) := by
  simp only [exec, execPop, sequencer_pop]
  rcases checkReg_cases opPOP a s _ with ⟨i, hi, h⟩ | ⟨ha, h⟩
  · rw [h]
    rcases check_cases (s.sp.toNat ≤ 243) .emptyStackUnderflow opPOP s _ with ⟨hc, h⟩ | ⟨hc, h⟩
    · exact .inl ⟨i, hi, hc, by rw [h]⟩
    · exact .inr (.inr ⟨by omega, by omega, by rw [h]⟩)
  · exact .inr (.inl ⟨ha, by rw [h]⟩)

/-- CALL faults, or pushes the return address and jumps to the value of some register: `a` itself in `direct` mode, the one
named by the byte at address `a` after the push in `reference_indirect` mode (42_handlers R125). -/
theorem exec_call_cases (a : Byte) (s : State) :
    (∃ i : Fin 8, 1 ≤ s.sp.toNat ∧ s.pc + 2 ≤ 255 ∧
      (s.callTargetMode = .direct → a.toNat = i) ∧
      (s.callTargetMode = .referenceIndirect → (s.calleeIndex a).toNat = i) ∧
      exec (.call a) s = .next ((s.pushByte s.returnByte).setPc (s.reg i).toNat)) ∨
    ((s.sp.toNat = 0 ∨ 253 < s.pc ∨ (s.callTargetMode = .direct ∧ 7 < a.toNat) ∨
        (s.callTargetMode = .referenceIndirect ∧ 7 < (s.calleeIndex a).toNat)) ∧
      exec (.call a) s = .next (raise .outOfBoundsAccess (some opCALL) s)) := by
  simp only [exec, execCall]
  cases hm : s.callTargetMode with
  | direct =>
    simp only [callDirect, sequencer_call]
    rcases checkReg_cases opCALL a s _ with ⟨i, hi, h⟩ | ⟨ha, h⟩
    · rw [h]
      rcases check_cases (1 ≤ s.sp.toNat) .outOfBoundsAccess opCALL s _ with ⟨hsp, h⟩ | ⟨hsp, h⟩
      · rw [h]
        rcases check_cases (s.returnAddr ≤ 255) .outOfBoundsAccess opCALL s _ with ⟨hpc, h⟩ | ⟨hpc, h⟩
        · exact .inl ⟨i, hsp, hpc, fun _ => hi, by simp, by rw [h]⟩
        · exact .inr ⟨.inr (.inl (by simp only [State.returnAddr] at hpc; omega)), by rw [h]⟩
      · exact .inr ⟨.inl (by omega), by rw [h]⟩
    · exact .inr ⟨.inr (.inr (.inl ⟨trivial, ha⟩)), by rw [h]⟩
  | referenceIndirect =>
    simp only [callIndirect, sequencer_call]
    rcases check_cases (1 ≤ s.sp.toNat) .outOfBoundsAccess opCALL s _ with ⟨hsp, h⟩ | ⟨hsp, h⟩
    · rw [h]
      rcases check_cases (s.returnAddr ≤ 255) .outOfBoundsAccess opCALL s _ with ⟨hpc, h⟩ | ⟨hpc, h⟩
      · rw [h]
        rcases checkReg_cases opCALL (s.calleeIndex a) s _ with ⟨i, hi, h⟩ | ⟨ha, h⟩
        · exact .inl ⟨i, hsp, hpc, by simp, fun _ => hi, by rw [h]⟩
        · exact .inr ⟨.inr (.inr (.inr ⟨trivial, ha⟩)), by rw [h]⟩
      · exact .inr ⟨.inr (.inl (by simp only [State.returnAddr] at hpc; omega)), by rw [h]⟩
    · exact .inr ⟨.inl (by omega), by rw [h]⟩

theorem exec_ret_cases (s : State) :
    (s.sp.toNat ≤ 243 ∧ exec .ret s = .next (s.dropTop.setPc s.top.toNat)) ∨
    (244 ≤ s.sp.toNat ∧ exec .ret s = .next (raise .emptyStackUnderflow (some opRET) s)) := by
  simp only [exec, execRet, sequencer_ret]
  rcases check_cases (s.sp.toNat ≤ 243) .emptyStackUnderflow opRET s _ with ⟨hc, h⟩ | ⟨hc, h⟩
  · exact .inl ⟨hc, by rw [h]⟩
  · exact .inr ⟨by omega, by rw [h]⟩

/-- What an ALU instruction can do, given its opcode's operation and that the sequencer advances it by 3. -/
theorem execAlu_next_cases {op : Byte} {o : AluOp} (hop : aluOp op = some o)
    (hseq : ∀ (pc0 : Nat) (t : State), sequencer op pc0 t = t.setPc (pc0 + 3)) (a b : Byte) (s : State) :
    (∃ i j : Fin 8, a.toNat = i ∧ b.toNat = j ∧ execAlu op a b s = (aluWrite o i j s).setPc (s.pc + 3)) ∨
    ((7 < a.toNat ∨ 7 < b.toNat) ∧ execAlu op a b s = raise .outOfBoundsAccess (some op) s) := by
  simpa only [hseq] using execAlu_cases hop a b s

theorem exec_add_cases (a b : Byte) (s : State) :
    (∃ i j : Fin 8, a.toNat = i ∧ b.toNat = j ∧ exec (.add a b) s = .next ((aluWrite .add i j s).setPc (s.pc + 3))) ∨
    ((7 < a.toNat ∨ 7 < b.toNat) ∧ exec (.add a b) s = .next (raise .outOfBoundsAccess (some opADD) s)) := by
  simpa only [exec, execAdd, Host.Outcome.next.injEq] using
    execAlu_next_cases (op := opADD) (o := .add) rfl (fun _ _ => rfl) a b s

theorem exec_sub_cases (a b : Byte) (s : State) :
    (∃ i j : Fin 8, a.toNat = i ∧ b.toNat = j ∧ exec (.sub a b) s = .next ((aluWrite .sub i j s).setPc (s.pc + 3))) ∨
    ((7 < a.toNat ∨ 7 < b.toNat) ∧ exec (.sub a b) s = .next (raise .outOfBoundsAccess (some opSUB) s)) := by
  simpa only [exec, execSub, Host.Outcome.next.injEq] using
    execAlu_next_cases (op := opSUB) (o := .sub) rfl (fun _ _ => rfl) a b s

theorem exec_mul_cases (a b : Byte) (s : State) :
    (∃ i j : Fin 8, a.toNat = i ∧ b.toNat = j ∧ exec (.mul a b) s = .next ((aluWrite .mul i j s).setPc (s.pc + 3))) ∨
    ((7 < a.toNat ∨ 7 < b.toNat) ∧ exec (.mul a b) s = .next (raise .outOfBoundsAccess (some opMUL) s)) := by
  simpa only [exec, execMul, Host.Outcome.next.injEq] using
    execAlu_next_cases (op := opMUL) (o := .mul) rfl (fun _ _ => rfl) a b s

theorem exec_cmp_cases (a b : Byte) (s : State) :
    (∃ i j : Fin 8, a.toNat = i ∧ b.toNat = j ∧ exec (.cmp a b) s = .next ((aluWrite .cmp i j s).setPc (s.pc + 3))) ∨
    ((7 < a.toNat ∨ 7 < b.toNat) ∧ exec (.cmp a b) s = .next (raise .outOfBoundsAccess (some opCMP) s)) := by
  simpa only [exec, execCmp, Host.Outcome.next.injEq] using
    execAlu_next_cases (op := opCMP) (o := .cmp) rfl (fun _ _ => rfl) a b s

/-- Every instruction answers a next state. -/
theorem exec_next (i : Instr) (s : State) : ∃ t, exec i s = .next t := by
  cases i <;> exact ⟨_, rfl⟩

/-- What a step can do: nothing when the core has stopped, else one instruction or the fault of its fetch (40_fetch R89). -/
theorem step_cases (s : State) :
    (s.status = .halted ∧ step s = .fault .coreHalted) ∨ (s.status = .faulted ∧ step s = .fault .coreFaulted) ∨
    (s.status = .running ∧ ∃ i, fetchDecode s = .ok i ∧ step s = exec i s) ∨
    (s.status = .running ∧ ∃ e, fetchDecode s = .error e ∧ step s = .next (fetchFault e s)) := by
  unfold step
  cases hs : s.status with
  | halted => simp
  | faulted => simp
  | running =>
    cases hf : fetchDecode s with
    | ok i => simp
    | error e => simp

end Sys2Proof.Machine
end

