-- ==== Sys2Proof/Tests/Slice0.lean ====
section
/-! SUPPORT. The model's own tests: decodings written out from 30_encoding R69, steps from the vectors of 95_test_vectors, and
a witness for the hypotheses of every statement that has some. -/

namespace Sys2Proof.Tests

open Sys2Proof.Machine

/-- The state after an outcome, if it is a next state. -/
def after (o : Host.Outcome State Fault Refusal) : Option State :=
  match o with
  | .next t => some t
  | _ => none

/-- Reset with the image at address 0 and registers R0 and R1 set. -/
def machine (image : List Byte) (r0 r1 : Byte) : State :=
  ((State.reset.storeBytes 0 image).setReg 0 r0).setReg 1 r1

/-- Reset with the image at `addr` and `pc` there. -/
def machineAt (addr : Nat) (image : List Byte) : State :=
  (State.reset.storeBytes addr image).setPc addr

/-- The same in the other target mode. -/
def indirect (s : State) : State := { s with callTargetMode := .referenceIndirect }

/-! Ill-formed terms: one for each register operand the check looks at (30_encoding R73). -/

theorem test_wf_ldi : Instr.wellFormed (.ldi 8 0) = false ∧ Instr.wellFormed (.ldi 7 255) = true := by decide
theorem test_wf_prn : Instr.wellFormed (.prn 8) = false ∧ Instr.wellFormed (.prn 7) = true := by decide
theorem test_wf_push : Instr.wellFormed (.push 255) = false ∧ Instr.wellFormed (.push 0) = true := by decide
theorem test_wf_pop : Instr.wellFormed (.pop 8) = false ∧ Instr.wellFormed (.pop 7) = true := by decide
theorem test_wf_call : Instr.wellFormed (.call 8) = false ∧ Instr.wellFormed (.call 7) = true := by decide
theorem test_wf_add : Instr.wellFormed (.add 8 0) = false ∧ Instr.wellFormed (.add 0 8) = false := by decide
theorem test_wf_sub : Instr.wellFormed (.sub 8 0) = false ∧ Instr.wellFormed (.sub 0 8) = false := by decide
theorem test_wf_mul : Instr.wellFormed (.mul 8 0) = false ∧ Instr.wellFormed (.mul 0 8) = false := by decide
theorem test_wf_cmp : Instr.wellFormed (.cmp 8 0) = false ∧ Instr.wellFormed (.cmp 0 8) = false := by decide

/-! Decoding, each word written out from the table of 30_encoding R69. -/

theorem test_decode_hlt : decode [0b00000001] = .ok (.hlt, []) := by rfl
theorem test_decode_ldi : decode [0b10000010, 0b00000000, 0b00000101] = .ok (.ldi 0 5, []) := by rfl
theorem test_decode_prn : decode [0b01000111, 0b00000000] = .ok (.prn 0, []) := by rfl
theorem test_decode_push : decode [0b01000101, 0b00000010] = .ok (.push 2, []) := by rfl
theorem test_decode_pop : decode [0b01000110, 0b00000010] = .ok (.pop 2, []) := by rfl
theorem test_decode_call : decode [0b01010000, 0b00000001] = .ok (.call 1, []) := by rfl
theorem test_decode_ret : decode [0b00010001, 0b01010000] = .ok (.ret, [0b01010000]) := by rfl
theorem test_decode_add : decode [0b10100000, 0b00000000, 0b00000001] = .ok (.add 0 1, []) := by rfl
theorem test_decode_sub : decode [0b10100011, 0b00000010, 0b00000011] = .ok (.sub 2 3, []) := by rfl
theorem test_decode_mul : decode [0b10100010, 0b00000011, 0b11111111] = .ok (.mul 3 255, []) := by rfl
theorem test_decode_cmp : decode [0b10100111, 0b00000010, 0b00000011] = .ok (.cmp 2 3, []) := by rfl

/-- The unsupported bytes of 95_test_vectors section 2.1, refused before any operand is looked at. -/
theorem test_decode_unsupported :
    [0x00, 0x02, 0x10, 0x20, 0x81, 0x83, 0xA1, 0xA4, 0xA8, 0xAF, 0x54, 0x55, 0x56, 0xC0, 0xFF].all
      (fun op : Byte => (lookup op).isNone) = true := by decide

theorem test_decode_missing : decode [] = .error .noOpcode ∧ decode [0x82, 0] = .error (.operandMissing 0x82) ∧
    decode [0x47] = .error (.operandMissing 0x47) := ⟨rfl, rfl, rfl⟩

/-- Bit 0 of a table word is the least significant bit of the first byte; bits from `nbits` up are zero. -/
theorem test_table_word : decodeTableWord 24 0x0305A0 = some (.add 5 3) ∧ decodeTableWord 8 0x0305A0 = some (.add 0 0) ∧
    decodeTableWord 8 0xC0 = none := by decide

/-! One step each, from 95_test_vectors. -/

/-- Section 2.7: `M[255] = 01`, `pc = 255`. -/
theorem test_hlt_at_255 : (after (step (machineAt 255 [0x01]))).map (fun t => (t.status, t.pc)) = some (.halted, 256) := by
  decide

/-- Section 2.4: LDI R7 does not touch SP. -/
theorem test_ldi_r7 : (after (step (machine [0x82, 0x07, 0x00] 0 0))).map (fun t => (t.reg 7, t.sp, t.pc)) =
    some (0, 244, 3) := by decide

/-- Section 2.4: `82 08 01` faults. -/
theorem test_ldi_r8 : (after (step (machine [0x82, 0x08, 0x01] 0 0))).map (fun t => (t.fault, t.pc)) =
    some (⟨.outOfBoundsAccess, 0, some 0x82⟩, 0) := by decide

/-- Section 2.4: `47 07` at reset outputs 244. -/
theorem test_prn_r7 : (after (step (machine [0x47, 0x07] 0 0))).map (fun t => (t.out, t.pc)) = some ([244], 2) := by decide

theorem test_prn_r9 : (after (step (machine [0x47, 0x09] 0 0))).map (fun t => (t.out, t.fault)) =
    some ([], ⟨.outOfBoundsAccess, 0, some 0x47⟩) := by decide

/-- Section 2.5: `PUSH R7` at reset. -/
theorem test_push_r7 : (after (step (machine [0x45, 0x07] 0 0))).map (fun t => (t.sp, t.memRead 243, t.pc)) =
    some (243, 244, 2) := by decide

/-- Section 2.5: a push at `SP = 1` overwrites address 0. -/
theorem test_push_to_0 : (after (step ((machine [0x45, 0x00] 9 0).setSp 1))).map (fun t => (t.sp, t.memRead 0)) =
    some (0, 9) := by decide

/-- Section 2.5: the popped cell keeps its value. -/
theorem test_pop_r1 : (after (step (((machine [0x46, 0x01] 0 0).memWrite 243 7).setSp 243))).map
    (fun t => (t.reg 1, t.sp, t.memRead 243)) = some (7, 244, 7) := by decide

/-- Section 2.5: `POP R8` on the empty stack faults on the register first. -/
theorem test_pop_priority : (after (step (machine [0x46, 0x08] 0 0))).map (·.fault) =
    some ⟨.outOfBoundsAccess, 0, some 0x46⟩ := by decide

/-- Section 2.6: `CALL R1`, direct, at 3. -/
theorem test_call_direct : (after (step ((machineAt 3 [0x50, 0x01]).setReg 1 8))).map
    (fun t => (t.sp, t.memRead 243, t.pc)) = some (243, 5, 8) := by decide

/-- Section 2.6: CALL with `a = 242`, reference_indirect, at 3: the index is the byte the push wrote. -/
theorem test_call_indirect : (after (step (indirect (((machineAt 3 [0x50, 242]).setReg 5 40).setSp 243)))).map
    (fun t => (t.sp, t.memRead 242, t.pc)) = some (242, 5, 40) := by decide

/-- Section 2.6: RET at `SP = 0`. -/
theorem test_ret : (after (step (((machineAt 100 [0x11]).memWrite 0 0x82).setSp 0))).map (fun t => (t.pc, t.sp)) =
    some (130, 1) := by decide

/-- Section 2.6: RET on the empty stack. -/
theorem test_ret_empty : (after (step (machine [0x11] 0 0))).map (fun t => (t.fault, t.pc, t.sp)) =
    some (⟨.emptyStackUnderflow, 0, some 0x11⟩, 0, 244) := by decide

/-- Section 2.3. -/
theorem test_add_wraps : (after (step (machine [0xA0, 0x00, 0x01] 200 100))).map (fun t => (t.reg 0, t.reg 1, t.pc)) =
    some (44, 100, 3) := by decide

theorem test_add_same : (after (step (machine [0xA0, 0x00, 0x00] 128 0))).map (·.reg 0) = some 0 := by decide

theorem test_sub_wraps : (after (step (machine [0xA3, 0x00, 0x01] 3 5))).map (fun t => (t.reg 0, t.fl)) =
    some (254, 0) := by decide

theorem test_mul_low_byte : (after (step (machine [0xA2, 0x00, 0x01] 15 17))).map (·.reg 0) = some 255 := by decide

theorem test_mul_wraps : (after (step (machine [0xA2, 0x00, 0x00] 255 0))).map (·.reg 0) = some 1 := by decide

theorem test_cmp_unsigned : (after (step (machine [0xA7, 0x00, 0x01] 255 1))).map (fun t => (t.fl, t.reg 0)) =
    some (0x02, 255) := by decide

theorem test_cmp_less : (after (step (machine [0xA7, 0x00, 0x01] 0 255))).map (·.fl) = some 0x04 := by decide

/-- Section 2.2: operand `b` of `82 00` at 254 lies at 256. -/
theorem test_operand_past_memory : (after (step (machineAt 254 [0x82, 0x00]))).map (fun t => (t.fault, t.pc)) =
    some (⟨.outOfBoundsAccess, 254, some 0x82⟩, 254) := by decide

/-- Section 2.2: an unsupported byte at 255 is refused before operand fetch. -/
theorem test_unsupported_at_255 : (after (step (machineAt 255 [0xC0]))).map (·.fault) =
    some ⟨.unsupportedOperation, 255, some 0xC0⟩ := by decide

/-- Section 2.2: the fetch at 256. -/
theorem test_fetch_at_256 : (after (step (State.reset.setPc 256))).map (fun t => (t.status, t.fault)) =
    some (.faulted, ⟨.outOfBoundsAccess, 256, none⟩) := by decide

/-- The numbers of the causes (60_exceptions R151). -/
theorem test_cause_codes : [FaultCause.none, .unsupportedOperation, .outOfBoundsAccess, .emptyStackUnderflow].map
    FaultCause.code = [0, 1, 2, 3] := by decide

/-- Loader text: comments, empty lines, white space (30_encoding R74), and a line that is no binary literal. -/
theorem test_program_text :
    parseProgram [['1', '0', '0', '0', '0', '0', '1', '0', ' ', '#', ' ', 'L'], ['#'], [], ['0', '0', '0', '0', '0', '1', '0', '1']]
      = .ok [0x82, 0x05] ∧ parseProgram [['1', '0', '2']] = .error .malformedProgram := by decide

/-- A file whose path does not exist (60_exceptions R152). -/
theorem test_program_absent : loadFile none State.reset = .error .programNotFound := by rfl

/-- Assembler text (30_encoding R73): registers in either case, the three number forms, no register above R7. -/
theorem test_assemble : assemble ['L', 'D', 'I', ' ', 'r', '0', ',', '5'] = some (.ldi 0 5) ∧
    assemble ['L', 'D', 'I', ' ', 'R', '3', ',', ' ', '0', 'x', 'f', 'F'] = some (.ldi 3 255) ∧
    assemble ['L', 'D', 'I', ' ', 'R', '3', ',', '0', 'b', '1', '0'] = some (.ldi 3 2) ∧
    assemble ['P', 'R', 'N', ' ', 'R', '8'] = none ∧ assemble ['L', 'D', 'I', ' ', 'R', '0', ',', '2', '5', '6'] = none := by decide

/-- What the host reports (60_exceptions R163). -/
theorem test_report : runReport State.reset = none ∧ runReport (State.reset.emit 5).halt = some (.success [5]) ∧
    runReport (raise .emptyStackUnderflow (some 0x46) (State.reset.emit 5)) =
      some (.failure ⟨.emptyStackUnderflow, 0, some 0x46⟩ [5]) := by decide

/-! Witnesses: the hypotheses of each statement, met together by a concrete state and operands, clause by clause at the edges
of their ranges. -/

theorem witness_DecodeAgreesWithEncode : decode [0xA0, 255, 0, 7] = .ok (.add 255 0, [7]) := by rfl
theorem witness_UnsupportedOpcodeFaults : (machineAt 255 [0x54]).status = .running ∧ (machineAt 255 [0x54]).pc ≤ 255 ∧
    (machineAt 255 [0x54]).memRead (BitVec.ofNat 8 (machineAt 255 [0x54]).pc) = 0x54 ∧
    (0x54 : Byte).toNat ∉ [0x01, 0x82, 0x47, 0x45, 0x46, 0x50, 0x11, 0xA0, 0xA3, 0xA2, 0xA7] := by decide
theorem witness_AssemblerReadsWhatItWrites : Instr.wellFormed (.ldi 7 255) = true := by decide
theorem witness_StepRunsDecodedInstruction : (machineAt 254 [0x47, 7]).status = .running ∧
    decode (fetchBytes (machineAt 254 [0x47, 7])) = .ok (.prn 7, []) := ⟨rfl, rfl⟩
theorem witness_StepExecutesInstructionInMemory : (machineAt 253 [0xA0, 0, 1]).status = .running ∧
    (machineAt 253 [0xA0, 0, 1]).pc + (encode (.add 0 1)).length ≤ 256 ∧
    ∀ k, k < (encode (.add 0 1)).length → (encode (.add 0 1))[k]? =
      some ((machineAt 253 [0xA0, 0, 1]).memRead (BitVec.ofNat 8 ((machineAt 253 [0xA0, 0, 1]).pc + k))) := by decide
theorem witness_OpcodeFetchPastMemoryFaults : (State.reset.setPc 256).status = .running ∧ 255 < (State.reset.setPc 256).pc := by
  decide
theorem witness_OperandFetchPastMemoryFaults : (machineAt 254 [0x82, 0]).status = .running ∧ (machineAt 254 [0x82, 0]).pc ≤ 255 ∧
    (machineAt 254 [0x82, 0]).memRead (BitVec.ofNat 8 (machineAt 254 [0x82, 0]).pc) = opcode (.ldi 0 0) ∧
    255 < (machineAt 254 [0x82, 0]).pc + numOperands (opcode (.ldi 0 0)) := by decide
theorem witness_StoppedCoreHasNoStep : State.reset.halt.status = .halted ∧
    (raise .outOfBoundsAccess none State.reset).status = .faulted := ⟨rfl, rfl⟩
theorem witness_RunningCoreAlwaysSteps : State.reset.status = .running := by rfl
theorem witness_HaltFinishesItsStep : (machineAt 255 [0x01]).status = .running ∧ (machineAt 255 [0x01]).pc ≤ 255 ∧
    (machineAt 255 [0x01]).memRead (BitVec.ofNat 8 (machineAt 255 [0x01]).pc) = 0x01 := by decide
theorem witness_OnlyHltHalts : (machine [0x01] 0 0).status = .running ∧
    step (machine [0x01] 0 0) = .next ((machine [0x01] 0 0).halt.setPc 1) ∧
    ((machine [0x01] 0 0).halt.setPc 1).status = .halted := ⟨rfl, rfl, rfl⟩
theorem witness_FaultsArePrecise : State.reset.status = .running ∧
    step State.reset = .next (raise .unsupportedOperation (some 0) State.reset) ∧
    (raise .unsupportedOperation (some 0) State.reset).status = .faulted := ⟨rfl, rfl, rfl⟩
theorem witness_PcChangesByInstruction_fault : exec (.prn 8) State.reset = .next (raise .outOfBoundsAccess (some 0x47) State.reset) ∧
    State.reset.status ≠ .faulted := ⟨rfl, by decide⟩
theorem witness_PcChangesByInstruction_advance : exec (.prn 7) State.reset = .next ((State.reset.emit 244).setPc 2) ∧
    setsPc (opcode (.prn 7)) = false := ⟨rfl, by decide⟩
theorem witness_PcChangesByInstruction_call : exec (.call 7) State.reset = .next ((State.reset.pushByte 2).setPc 244) := by rfl
theorem witness_PcChangesByInstruction_indirect : (indirect State.reset).callTargetMode = .referenceIndirect ∧
    exec (.call 0) (indirect State.reset) = .next ((indirect State.reset).pushByte 2) := ⟨rfl, rfl⟩
theorem witness_PcChangesByInstruction_ret :
    exec .ret ((State.reset.memWrite 243 9).setSp 243) = .next ((State.reset.memWrite 243 9).setPc 9) ∧
    ((State.reset.memWrite 243 9).setPc 9).status ≠ .faulted := ⟨rfl, by decide⟩
theorem witness_FetchWordRunsAsNextInstruction : State.reset.status = .running ∧ State.reset.pc ≤ 253 ∧
    (State.reset.setPc 253).pc ≤ 253 ∧ decodeTableWord 24 0xFF0782 = some (.ldi 7 255) := by decide
/-- Each condition of the fault table in turn, and none of them. -/
theorem witness_FaultConditionsAreExactlyTheTable :
    (after (exec (.add 0 8) State.reset)).map (·.status) = some .faulted ∧
    (after (exec (.push 0) (State.reset.setSp 0))).map (·.status) = some .faulted ∧
    (after (exec (.call 0) (State.reset.setPc 254))).map (·.status) = some .faulted ∧
    (after (exec (.call 9) (indirect (State.reset.memWrite 9 8)))).map (·.status) = some .faulted ∧
    (after (exec .ret State.reset)).map (·.status) = some .faulted ∧
    (after (exec (.call 9) (indirect (State.reset.memWrite 9 7)))).map (·.status) = some .running := by decide
/-! Index operands at both edges of the register file, and the first byte past it. -/

theorem witness_AddSemantics : (0 : Byte).toNat = (0 : Fin 8) ∧ (7 : Byte).toNat = (7 : Fin 8) ∧ 7 < (8 : Byte).toNat := by decide
theorem witness_SubSemantics : (0 : Byte).toNat = (0 : Fin 8) ∧ (7 : Byte).toNat = (7 : Fin 8) ∧ 7 < (8 : Byte).toNat := by decide
theorem witness_MulSemantics : (0 : Byte).toNat = (0 : Fin 8) ∧ (7 : Byte).toNat = (7 : Fin 8) ∧ 7 < (8 : Byte).toNat := by decide
theorem witness_CmpSemantics : (0 : Byte).toNat = (0 : Fin 8) ∧ (7 : Byte).toNat = (7 : Fin 8) ∧ 7 < (8 : Byte).toNat := by decide
theorem witness_LdiSemantics : (7 : Byte).toNat = (7 : Fin 8) ∧ 7 < (8 : Byte).toNat := by decide
theorem witness_PrnSemantics : (7 : Byte).toNat = (7 : Fin 8) ∧ 7 < (8 : Byte).toNat := by decide
theorem witness_AluRefusesOtherOpcodes : (0xA1 : Byte).toNat ∉ [0xA0, 0xA3, 0xA2, 0xA7] ∧ (7 : Byte).toNat ≤ 7 ∧
    7 < (8 : Byte).toNat := by decide
theorem witness_AluTouchesRegistersAndFlagsOnly :
    exec (.cmp 0 7) State.reset = .next ((State.reset.setFl 0x04).setPc 3) ∧
    exec (.sub 0 7) State.reset = .next ((State.reset.setReg 0 12).setPc 3) ∧
    exec (.mul 7 0) State.reset = .next ((State.reset.setReg 7 0).setPc 3) ∧
    exec (.add 8 0) State.reset = .next (raise .outOfBoundsAccess (some 0xA0) State.reset) ∧
    (0 : Byte).toNat = (0 : Fin 8) ∧ (7 : Byte).toNat = (7 : Fin 8) := ⟨rfl, rfl, rfl, rfl, rfl, rfl⟩
/-- At `SP = 1`, and at `SP = 0`. -/
theorem witness_PushSemantics : (7 : Byte).toNat = (7 : Fin 8) ∧ 1 ≤ (State.reset.setSp 1).sp.toNat ∧ 7 < (8 : Byte).toNat ∧
    (State.reset.setSp 0).sp.toNat = 0 := by decide
/-- At `SP = 243`, and at 244. -/
theorem witness_PopSemantics : (7 : Byte).toNat = (7 : Fin 8) ∧ (State.reset.setSp 243).sp.toNat ≤ 243 ∧ 7 < (8 : Byte).toNat ∧
    (7 : Byte).toNat ≤ 7 ∧ 244 ≤ State.reset.sp.toNat := by decide
theorem witness_RetSemantics : (State.reset.setSp 243).sp.toNat ≤ 243 ∧ 244 ≤ State.reset.sp.toNat := by decide
theorem witness_CallDirectSemantics : (State.reset.setPc 253).callTargetMode = .direct ∧ (7 : Byte).toNat = (7 : Fin 8) ∧
    1 ≤ (State.reset.setPc 253).sp.toNat ∧ (State.reset.setPc 253).pc + 2 ≤ 255 ∧ 255 < (State.reset.setPc 254).pc + 2 := by decide
/-- Both ways the index is found: from the byte at `a`, and from the return address the push leaves there. -/
theorem witness_CallIndirectSemantics :
    (indirect ((State.reset.setPc 5).setSp 243)).callTargetMode = .referenceIndirect ∧
    (if (242 : Byte) = (indirect ((State.reset.setPc 5).setSp 243)).pushAddr then
      (indirect ((State.reset.setPc 5).setSp 243)).pc + 2 else 0) = (7 : Fin 8) ∧
    (9 : Byte) ≠ (indirect (State.reset.memWrite 9 7)).pushAddr ∧
    ((indirect (State.reset.memWrite 9 7)).memRead 9).toNat = (7 : Fin 8) ∧
    7 < ((indirect (State.reset.memWrite 9 8)).memRead 9).toNat := by decide
theorem witness_FrameOfFormsThatStoreNothing : (∀ a, Instr.ret ≠ .push a ∧ Instr.ret ≠ .call a) ∧
    exec .ret (State.reset.setSp 243) = .next (State.reset.setPc 0) := ⟨by simp, rfl⟩
theorem witness_FrameOfFormsThatStore : exec (.push 7) State.reset = .next ((State.reset.pushByte 244).setPc 2) := by rfl
theorem witness_FlagsAreWrittenOnlyByCmpAndNeverRead :
    exec (.ldi 0 1) State.reset = .next ((State.reset.setReg 0 1).setPc 3) ∧ (∀ a b, Instr.ldi 0 1 ≠ .cmp a b) :=
  ⟨rfl, by simp⟩
theorem witness_OnlyStackInstructionsUseSp : (∀ a, Instr.hlt ≠ .push a ∧ Instr.hlt ≠ .pop a ∧ Instr.hlt ≠ .call a) ∧
    Instr.hlt ≠ .ret ∧ exec .hlt State.reset = .next (State.reset.halt.setPc 1) := ⟨by simp, by simp, rfl⟩
theorem witness_R7DoesNotFollowSp :
    exec (.pop 0) (State.reset.setSp 243) = .next ((State.reset.setReg 0 0).setPc 2) ∧ (0 : Byte) ≠ 7 ∧
    exec (.ldi 7 1) State.reset = .next ((State.reset.setReg 7 1).setPc 3) := ⟨rfl, by decide, rfl⟩
theorem witness_OutputIsAppendOnly : exec (.prn 7) State.reset = .next ((State.reset.emit 244).setPc 2) ∧
    step (machine [0x47, 0x07] 0 0) = .next (((machine [0x47, 0x07] 0 0).emit 244).setPc 2) := ⟨rfl, rfl⟩
theorem witness_CallTargetModeIsFixed : step (indirect (machine [0x01] 0 0)) = .next ((indirect (machine [0x01] 0 0)).halt.setPc 1) := by
  rfl
theorem witness_PushThenPopMovesTheValue : (0 : Byte).toNat = (0 : Fin 8) ∧ (7 : Byte).toNat = (7 : Fin 8) ∧
    1 ≤ (State.reset.setSp 1).sp.toNat ∧ (State.reset.setSp 1).sp.toNat ≤ 244 ∧ State.reset.sp.toNat ≤ 244 := by decide
theorem witness_CallThenRetReturns : (State.reset.setPc 253).callTargetMode = .direct ∧ (7 : Byte).toNat = (7 : Fin 8) ∧
    1 ≤ (State.reset.setPc 253).sp.toNat ∧ (State.reset.setPc 253).sp.toNat ≤ 244 ∧ (State.reset.setPc 253).pc ≤ 253 ∧
    (State.reset.pushByte 2).sp = 243 ∧ (State.reset.pushByte 2).memRead 243 = 2 := by decide
theorem witness_LoadPushReturnJumps : (7 : Byte).toNat ≤ 7 ∧ 1 ≤ (State.reset.setSp 1).sp.toNat ∧
    (State.reset.setSp 1).sp.toNat ≤ 244 := by decide
theorem witness_CanonicalMemoriesWithEqualReadsAreEqual : Memory.wf [(0, 1), (255, 2)] ∧ Memory.wf (Memory.write (Memory.write [] 255 2) 0 1) ∧
    Memory.write (Memory.write [] 255 2) 0 1 = [(0, 1), (255, 2)] := by decide
theorem witness_BootFillsMemoryWithTheImage : (List.replicate 256 (1 : Byte)).length ≤ 256 :=
  List.length_replicate.le
theorem witness_LoadWritesOnlyTheImage : (List.replicate 256 (1 : Byte)).length ≤ 256 ∧
    256 < (List.replicate 257 (1 : Byte)).length :=
  ⟨List.length_replicate.le, (by decide : 256 < 257).trans_eq List.length_replicate.symm⟩
theorem witness_StepKeepsTheInvariant : (machine [0x01] 0 0).Inv ∧
    step (machine [0x01] 0 0) = .next ((machine [0x01] 0 0).halt.setPc 1) :=
  ⟨⟨by decide, by decide, by decide, by decide, by decide, by decide, by decide, by decide, by decide⟩, rfl⟩

end Sys2Proof.Tests
end

/-! ## What changes and what stays: frames, the invariant, noninterference

A completed instruction is described once, by `Completes`; every instruction completes or enters a fault
(`exec_completes_or_raises`). The frame `exec_keepsOutside`, the invariant and the statements on `pc` follow from these. -/

namespace Sys2Proof

/-! ### The decoder, from a result back to the bytes -/

theorem decode_n0 {op : Byte} {i j : Instr} {tail rest : List Byte} (hl : lookup op = some (.n0 j))
    (h : decode (op :: tail) = .ok (i, rest)) : i = j ∧ tail = rest := by
  simpa [decode, hl, eq_comm] using h

theorem decode_n1 {op : Byte} {i : Instr} {make : Byte → Instr} {tail rest : List Byte} (hl : lookup op = some (.n1 make))
    (h : decode (op :: tail) = .ok (i, rest)) : ∃ a, i = make a ∧ tail = a :: rest := by
  cases tail with
  | nil => simp [decode, hl] at h
  | cons a tail =>
    obtain ⟨rfl, rfl⟩ : make a = i ∧ tail = rest := by simpa [decode, hl] using h
    exact ⟨a, rfl, rfl⟩

theorem decode_n2 {op : Byte} {i : Instr} {make : Byte → Byte → Instr} {tail rest : List Byte}
    (hl : lookup op = some (.n2 make)) (h : decode (op :: tail) = .ok (i, rest)) :
    ∃ a b, i = make a b ∧ tail = a :: b :: rest := by
  match tail, h with
  | [], h => simp [decode, hl] at h
  | [_], h => simp [decode, hl] at h
  | a :: b :: tail, h =>
    obtain ⟨rfl, rfl⟩ : make a b = i ∧ tail = rest := by simpa [decode, hl] using h
    exact ⟨a, b, rfl, rfl⟩

/-- What decodes to an instruction starts with that instruction's own bytes (30_encoding R66). -/
theorem eq_encode_append_of_decode {bytes rest : List Byte} {i : Instr} (h : decode bytes = .ok (i, rest)) :
    bytes = encode i ++ rest := by
  cases bytes with
  | nil => simp [decode] at h
  | cons op tail =>
    cases hl : lookup op with
    | none => simp [decode, hl] at h
    | some f =>
      have hrow := lookup_cases hl
      cases f with
      | n0 j =>
        obtain ⟨rfl, rfl⟩ := decode_n0 hl h
        simp only [Format.n0.injEq, reduceCtorEq, and_false, false_or, or_false] at hrow
        rcases hrow with ⟨rfl, rfl⟩ | ⟨rfl, rfl⟩ <;> rfl
      | n1 make =>
        obtain ⟨a, rfl, rfl⟩ := decode_n1 hl h
        simp only [Format.n1.injEq, reduceCtorEq, and_false, false_or, or_false] at hrow
        rcases hrow with ⟨rfl, rfl⟩ | ⟨rfl, rfl⟩ | ⟨rfl, rfl⟩ | ⟨rfl, rfl⟩ <;> rfl
      | n2 make =>
        obtain ⟨a, b, rfl, rfl⟩ := decode_n2 hl h
        simp only [Format.n2.injEq, reduceCtorEq, and_false, false_or] at hrow
        rcases hrow with ⟨rfl, rfl⟩ | ⟨rfl, rfl⟩ | ⟨rfl, rfl⟩ | ⟨rfl, rfl⟩ | ⟨rfl, rfl⟩ <;> rfl

theorem decode_eq_noOpcode_iff (bytes : List Byte) : decode bytes = .error .noOpcode ↔ bytes = [] := by
  cases bytes with
  | nil => simp [decode]
  | cons op tail => simp only [decode]; split <;> simp

theorem encode_length (i : Instr) : (encode i).length = 1 + numOperands (opcode i) := by
  cases i <;> simp [encode]

theorem encode_eq_cons (i : Instr) : ∃ operands, encode i = opcode i :: operands := by
  cases i <;> exact ⟨_, rfl⟩

namespace Machine

/-! ### The fetch -/

theorem fetchBytes_eq_nil_iff (s : State) : fetchBytes s = [] ↔ 255 < s.pc := by
  rw [← List.length_eq_zero_iff, fetchBytes_length, maxLength]
  omega

/-- A fetched instruction fits in memory, and its opcode is the byte at `pc` (40_fetch R81 to R83). -/
theorem fetchDecode_ok {s : State} {i : Instr} (h : fetchDecode s = .ok i) :
    s.pc + (encode i).length ≤ 256 ∧ s.pc ≤ 255 ∧ s.memRead (BitVec.ofNat 8 s.pc) = opcode i := by
  unfold fetchDecode at h
  split at h
  · next j rest hd =>
    obtain rfl : j = i := by simpa using h
    have hbytes := eq_encode_append_of_decode hd
    obtain ⟨operands, henc⟩ := encode_eq_cons j
    have hpc : s.pc ≤ 255 := by
      by_contra hgt
      simp [fetchBytes_past s (by omega)] at hbytes
    obtain ⟨tail, hhead⟩ := fetchBytes_head s hpc
    have hlen := congrArg List.length hbytes
    rw [fetchBytes_length, List.length_append] at hlen
    rw [hhead, henc] at hbytes
    exact ⟨by omega, hpc, (List.cons.inj hbytes).1⟩
  · simp at h

/-- The fetch finds no opcode byte exactly past the last cell (40_fetch R81). -/
theorem fetchDecode_error {s : State} {e : DecodeError} (h : fetchDecode s = .error e) : e = .noOpcode ↔ 255 < s.pc := by
  unfold fetchDecode at h
  split at h
  · simp at h
  · next e' hd =>
    obtain rfl : e' = e := by simpa using h
    rw [← fetchBytes_eq_nil_iff, ← decode_eq_noOpcode_iff, hd, Except.error.injEq]

/-- The record of a failed fetch has a cause, and no opcode exactly where there was none to fetch (60_exceptions R151). -/
theorem fetchFault_raises_opcode (e : DecodeError) (s : State) :
    ∃ cause op, cause ≠ .none ∧ (op = none ↔ e = .noOpcode) ∧ fetchFault e s = raise cause op s := by
  cases e <;> exact ⟨_, _, by decide, by simp, rfl⟩

/-- A step that answers a state runs the fetched instruction, or enters the fault of a failed fetch (40_fetch R89). -/
theorem step_next_cases {s t : State} (h : step s = .next t) :
    s.status = .running ∧ ((∃ i, fetchDecode s = .ok i ∧ exec i s = .next t) ∨
      ∃ e, fetchDecode s = .error e ∧ t = fetchFault e s) := by
  rcases step_cases s with ⟨-, hstep⟩ | ⟨-, hstep⟩ | ⟨hs, i, hf, hstep⟩ | ⟨hs, e, hf, hstep⟩
  · simp [hstep] at h
  · simp [hstep] at h
  · exact ⟨hs, .inl ⟨i, hf, hstep ▸ h⟩⟩
  · exact ⟨hs, .inr ⟨e, hf, by simpa [hstep, eq_comm] using h⟩⟩

/-! ### Frames -/

section Frames

variable {ps qs : List Part} {s t u : State}

theorem KeepsOutside.trans (h₁ : KeepsOutside ps s t) (h₂ : KeepsOutside ps t u) : KeepsOutside ps s u where
  regs i hi := (h₂.regs i hi).trans (h₁.regs i hi)
  cells addr ha := (h₂.cells addr ha).trans (h₁.cells addr ha)
  pc hp := (h₂.pc hp).trans (h₁.pc hp)
  sp hp := (h₂.sp hp).trans (h₁.sp hp)
  fl hp := (h₂.fl hp).trans (h₁.fl hp)
  status hp := (h₂.status hp).trans (h₁.status hp)
  fault hp := (h₂.fault hp).trans (h₁.fault hp)
  out hp := (h₂.out hp).trans (h₁.out hp)
  mode := h₂.mode.trans h₁.mode

theorem KeepsOutside.mono (h : KeepsOutside ps s t) (hsub : ps ⊆ qs) : KeepsOutside qs s t where
  regs i hi := h.regs i (mt (hsub ·) hi)
  cells addr ha := h.cells addr (mt (hsub ·) ha)
  pc hp := h.pc (mt (hsub ·) hp)
  sp hp := h.sp (mt (hsub ·) hp)
  fl hp := h.fl (mt (hsub ·) hp)
  status hp := h.status (mt (hsub ·) hp)
  fault hp := h.fault (mt (hsub ·) hp)
  out hp := h.out (mt (hsub ·) hp)
  mode := h.mode

theorem State.setReg_keepsOutside (s : State) {i : Fin 8} (v : Byte) (h : .reg i ∈ ps) : KeepsOutside ps s (s.setReg i v) :=
  ⟨fun _ hj => s.reg_setReg_other v fun e => hj (e ▸ h), fun _ _ => rfl, fun _ => rfl, fun _ => rfl, fun _ => rfl,
    fun _ => rfl, fun _ => rfl, fun _ => rfl, rfl⟩

theorem State.setPc_keepsOutside (s : State) (n : Nat) (h : .pc ∈ ps) : KeepsOutside ps s (s.setPc n) :=
  ⟨fun _ _ => rfl, fun _ _ => rfl, fun hn => absurd h hn, fun _ => rfl, fun _ => rfl, fun _ => rfl, fun _ => rfl,
    fun _ => rfl, rfl⟩

theorem State.setFl_keepsOutside (s : State) (v : Byte) (h : .fl ∈ ps) : KeepsOutside ps s (s.setFl v) :=
  ⟨fun _ _ => rfl, fun _ _ => rfl, fun _ => rfl, fun _ => rfl, fun hn => absurd h hn, fun _ => rfl, fun _ => rfl,
    fun _ => rfl, rfl⟩

theorem State.setSp_keepsOutside (s : State) (v : Byte) (h : .sp ∈ ps) : KeepsOutside ps s (s.setSp v) :=
  ⟨fun _ _ => rfl, fun _ _ => rfl, fun _ => rfl, fun hn => absurd h hn, fun _ => rfl, fun _ => rfl, fun _ => rfl,
    fun _ => rfl, rfl⟩

theorem State.emit_keepsOutside (s : State) (v : Byte) (h : .out ∈ ps) : KeepsOutside ps s (s.emit v) :=
  ⟨fun _ _ => rfl, fun _ _ => rfl, fun _ => rfl, fun _ => rfl, fun _ => rfl, fun _ => rfl, fun _ => rfl,
    fun hn => absurd h hn, rfl⟩

theorem State.halt_keepsOutside (s : State) (h : .status ∈ ps) : KeepsOutside ps s s.halt :=
  ⟨fun _ _ => rfl, fun _ _ => rfl, fun _ => rfl, fun _ => rfl, fun _ => rfl, fun hn => absurd h hn, fun _ => rfl,
    fun _ => rfl, rfl⟩

theorem State.memWrite_keepsOutside (s : State) {addr : Byte} (v : Byte) (h : .cell addr ∈ ps) :
    KeepsOutside ps s (s.memWrite addr v) :=
  ⟨fun _ _ => rfl, fun _ ha => s.memRead_memWrite_other v fun e => ha (e ▸ h), fun _ => rfl, fun _ => rfl, fun _ => rfl,
    fun _ => rfl, fun _ => rfl, fun _ => rfl, rfl⟩

theorem State.pushByte_keepsOutside (s : State) (v : Byte) (hsp : .sp ∈ ps) (hcell : .cell s.pushAddr ∈ ps) :
    KeepsOutside ps s (s.pushByte v) :=
  (s.setSp_keepsOutside _ hsp).trans (State.memWrite_keepsOutside _ v hcell)

theorem State.dropTop_keepsOutside (s : State) (h : .sp ∈ ps) : KeepsOutside ps s s.dropTop :=
  s.setSp_keepsOutside _ h

end Frames

@[simp] theorem mem_registerPart (p : Part) (a : Byte) : p ∈ registerPart a ↔ ∃ i : Fin 8, a.toNat = i ∧ .reg i = p := by
  simp [registerPart]

/-! ### What a completed instruction does -/

/-- `Completes i s t`: from `s`, instruction `i` passes its checks and ends in `t` (41_alu R101 to R104, 42_handlers R120 to
R126). -/
inductive Completes : Instr → State → State → Prop
  | hlt {s : State} : Completes .hlt s (s.halt.setPc (s.pc + 1))
  | ldi {s : State} {a b : Byte} {r : Fin 8} (ha : a.toNat = r) :
      Completes (.ldi a b) s ((s.setReg r b).setPc (s.pc + 3))
  | prn {s : State} {a : Byte} {r : Fin 8} (ha : a.toNat = r) :
      Completes (.prn a) s ((s.emit (s.reg r)).setPc (s.pc + 2))
  | push {s : State} {a : Byte} {r : Fin 8} (ha : a.toNat = r) (hsp : 1 ≤ s.sp.toNat) :
      Completes (.push a) s ((s.pushByte (s.reg r)).setPc (s.pc + 2))
  | pop {s : State} {a : Byte} {r : Fin 8} (ha : a.toNat = r) (hsp : s.sp.toNat ≤ 243) :
      Completes (.pop a) s (((s.setReg r s.top).dropTop).setPc (s.pc + 2))
  | call {s : State} {a : Byte} {r : Fin 8} (hsp : 1 ≤ s.sp.toNat) (hpc : s.pc + 2 ≤ 255)
      (hdirect : s.callTargetMode = .direct → a.toNat = r)
      (hindirect : s.callTargetMode = .referenceIndirect → (s.calleeIndex a).toNat = r) :
      Completes (.call a) s ((s.pushByte s.returnByte).setPc (s.reg r).toNat)
  | ret {s : State} (hsp : s.sp.toNat ≤ 243) : Completes .ret s (s.dropTop.setPc s.top.toNat)
  | add {s : State} {a b : Byte} {r q : Fin 8} (ha : a.toNat = r) (hb : b.toNat = q) :
      Completes (.add a b) s ((aluWrite .add r q s).setPc (s.pc + 3))
  | sub {s : State} {a b : Byte} {r q : Fin 8} (ha : a.toNat = r) (hb : b.toNat = q) :
      Completes (.sub a b) s ((aluWrite .sub r q s).setPc (s.pc + 3))
  | mul {s : State} {a b : Byte} {r q : Fin 8} (ha : a.toNat = r) (hb : b.toNat = q) :
      Completes (.mul a b) s ((aluWrite .mul r q s).setPc (s.pc + 3))
  | cmp {s : State} {a b : Byte} {r q : Fin 8} (ha : a.toNat = r) (hb : b.toNat = q) :
      Completes (.cmp a b) s ((aluWrite .cmp r q s).setPc (s.pc + 3))

/-- `exec` answers what `Completes` says, or fault entry. -/
theorem exec_outcome (i : Instr) (s : State) :
    (∃ t, Completes i s t ∧ exec i s = .next t) ∨
    ∃ cause, cause ≠ .none ∧ exec i s = .next (raise cause (some (opcode i)) s) := by
  cases i with
  | hlt => exact .inl ⟨_, .hlt, exec_hlt s⟩
  | ldi a b =>
    rcases exec_ldi_cases a b s with ⟨r, ha, h⟩ | ⟨-, h⟩
    · exact .inl ⟨_, .ldi ha, h⟩
    · exact .inr ⟨_, by decide, h⟩
  | prn a =>
    rcases exec_prn_cases a s with ⟨r, ha, h⟩ | ⟨-, h⟩
    · exact .inl ⟨_, .prn ha, h⟩
    · exact .inr ⟨_, by decide, h⟩
  | push a =>
    rcases exec_push_cases a s with ⟨r, ha, hsp, h⟩ | ⟨-, h⟩
    · exact .inl ⟨_, .push ha hsp, h⟩
    · exact .inr ⟨_, by decide, h⟩
  | pop a =>
    rcases exec_pop_cases a s with ⟨r, ha, hsp, h⟩ | ⟨-, h⟩ | ⟨-, -, h⟩
    · exact .inl ⟨_, .pop ha hsp, h⟩
    · exact .inr ⟨_, by decide, h⟩
    · exact .inr ⟨_, by decide, h⟩
  | call a =>
    rcases exec_call_cases a s with ⟨r, hsp, hpc, hdirect, hindirect, h⟩ | ⟨-, h⟩
    · exact .inl ⟨_, .call hsp hpc hdirect hindirect, h⟩
    · exact .inr ⟨_, by decide, h⟩
  | ret =>
    rcases exec_ret_cases s with ⟨hsp, h⟩ | ⟨-, h⟩
    · exact .inl ⟨_, .ret hsp, h⟩
    · exact .inr ⟨_, by decide, h⟩
  | add a b =>
    rcases exec_add_cases a b s with ⟨r, q, ha, hb, h⟩ | ⟨-, h⟩
    · exact .inl ⟨_, .add ha hb, h⟩
    · exact .inr ⟨_, by decide, h⟩
  | sub a b =>
    rcases exec_sub_cases a b s with ⟨r, q, ha, hb, h⟩ | ⟨-, h⟩
    · exact .inl ⟨_, .sub ha hb, h⟩
    · exact .inr ⟨_, by decide, h⟩
  | mul a b =>
    rcases exec_mul_cases a b s with ⟨r, q, ha, hb, h⟩ | ⟨-, h⟩
    · exact .inl ⟨_, .mul ha hb, h⟩
    · exact .inr ⟨_, by decide, h⟩
  | cmp a b =>
    rcases exec_cmp_cases a b s with ⟨r, q, ha, hb, h⟩ | ⟨-, h⟩
    · exact .inl ⟨_, .cmp ha hb, h⟩
    · exact .inr ⟨_, by decide, h⟩

/-- An instruction completes, or enters a fault that names a cause and the instruction's opcode. -/
theorem exec_completes_or_raises {i : Instr} {s t : State} (h : exec i s = .next t) :
    Completes i s t ∨ ∃ cause, cause ≠ .none ∧ t = raise cause (some (opcode i)) s := by
  rcases exec_outcome i s with ⟨u, hu, he⟩ | ⟨cause, hc, he⟩
  · obtain rfl : u = t := by simpa [he] using h
    exact .inl hu
  · exact .inr ⟨cause, hc, by simpa [he, eq_comm] using h⟩

section Completed

variable {i : Instr} {s t : State}

theorem pc_mem_writtenParts : .pc ∈ writtenParts i s := by
  cases i <;> simp [writtenParts]

/-- A completed instruction changes only the parts its rule names. -/
theorem Completes.keepsOutside (h : Completes i s t) : KeepsOutside (writtenParts i s) s t := by
  cases h with
  | hlt => exact (s.halt_keepsOutside (by simp [writtenParts])).trans (State.setPc_keepsOutside _ _ pc_mem_writtenParts)
  | ldi ha | add ha hb | sub ha hb | mul ha hb =>
    exact (s.setReg_keepsOutside _ (by simp [writtenParts, ha])).trans
      (State.setPc_keepsOutside _ _ pc_mem_writtenParts)
  | prn ha => exact (s.emit_keepsOutside _ (by simp [writtenParts])).trans (State.setPc_keepsOutside _ _ pc_mem_writtenParts)
  | push | call =>
    exact (s.pushByte_keepsOutside _ (by simp [writtenParts]) (by simp [writtenParts])).trans
      (State.setPc_keepsOutside _ _ pc_mem_writtenParts)
  | pop ha hsp =>
    exact ((s.setReg_keepsOutside _ (by simp [writtenParts, ha])).trans
      (State.dropTop_keepsOutside _ (by simp [writtenParts]))).trans (State.setPc_keepsOutside _ _ pc_mem_writtenParts)
  | ret => exact (s.dropTop_keepsOutside (by simp [writtenParts])).trans (State.setPc_keepsOutside _ _ pc_mem_writtenParts)
  | cmp => exact (s.setFl_keepsOutside _ (by simp [writtenParts])).trans (State.setPc_keepsOutside _ _ pc_mem_writtenParts)

/-- The fault record is no part a completed instruction writes. -/
theorem Completes.fault_eq (h : Completes i s t) : t.fault = s.fault :=
  h.keepsOutside.fault (by cases i <;> simp [writtenParts])

/-- Only HLT writes the status, and it writes HALTED (10_state R34). -/
theorem Completes.status_eq (h : Completes i s t) : t.status = if i = .hlt then .halted else s.status := by
  cases h <;> rfl

theorem Completes.not_faulted (h : Completes i s t) (hs : s.status ≠ .faulted) : t.status ≠ .faulted := by
  rw [h.status_eq]
  split
  · decide
  · exact hs

theorem Completes.eq_hlt_of_halted (h : Completes i s t) (hs : s.status = .running) (ht : t.status = .halted) : i = .hlt := by
  by_contra hne
  simp [h.status_eq, hne, hs] at ht

theorem Completes.pc_of_not_setsPc (h : Completes i s t) (hi : setsPc (opcode i) = false) :
    t.pc = s.pc + 1 + numOperands (opcode i) := by
  cases h with
  | call | ret => simp at hi
  | _ => simp

theorem Completes.mem_wf (h : Completes i s t) (hs : s.mem.wf) : t.mem.wf := by
  cases h with
  | push | call => exact Memory.wf_write hs _ _
  | _ => exact hs

theorem Completes.pc_le (h : Completes i s t) (hfit : s.pc + (encode i).length ≤ 256) : t.pc ≤ 256 := by
  rw [encode_length] at hfit
  by_cases hi : setsPc (opcode i) = false
  · rw [h.pc_of_not_setsPc hi]
    omega
  · cases h with
    | call => exact (BitVec.isLt _).le
    | ret => exact (BitVec.isLt _).le
    | _ => simp at hi

theorem State.pushAddr_toNat (h : 1 ≤ s.sp.toNat) : s.pushAddr.toNat = s.sp.toNat - 1 := by
  unfold State.pushAddr
  bv_omega

theorem Completes.sp_le (h : Completes i s t) (hs : s.sp.toNat ≤ 244) : t.sp.toNat ≤ 244 := by
  cases h with
  | push _ hsp | call hsp =>
    have := State.pushAddr_toNat hsp
    simp only [State.setPc_sp, State.pushByte_sp]
    omega
  | pop _ hsp | ret hsp =>
    simp only [State.setPc_sp, State.dropTop_sp, State.setReg_sp]
    bv_omega
  | _ => exact hs

/-- FL stays, or CMP leaves exactly one flag set (10_state R31). -/
theorem Completes.fl_cases (h : Completes i s t) : t.fl = s.fl ∨ t.fl = 0x01 ∨ t.fl = 0x02 ∨ t.fl = 0x04 := by
  cases h with
  | @cmp _ _ _ r q =>
    rcases flags_cases (s.reg r) (s.reg q) with ⟨-, hf⟩ | ⟨-, hf⟩ | ⟨-, hf⟩
    · exact .inr (.inr (.inr hf))
    · exact .inr (.inr (.inl hf))
    · exact .inr (.inl hf)
  | _ => exact .inl rfl

/-! ### The invariant -/

/-- A completed instruction that lies within memory keeps the invariant of a running core. -/
theorem Completes.inv (h : Completes i s t) (hinv : s.Inv) (hs : s.status = .running)
    (hfit : s.pc + (encode i).length ≤ 256) : t.Inv where
  mem := h.mem_wf hinv.mem
  pc := h.pc_le hfit
  sp := h.sp_le hinv.sp
  fl := by
    rcases h.fl_cases with hfl | hfl | hfl | hfl
    · exact hfl ▸ hinv.fl
    · exact .inr (.inl hfl)
    · exact .inr (.inr (.inl hfl))
    · exact .inr (.inr (.inr hfl))
  faultPc := h.fault_eq ▸ hinv.faultPc
  noFault _ := h.fault_eq ▸ hinv.noFault (by simp [hs])
  faulted ht := absurd ht (h.not_faulted (by simp [hs]))
  faultOpcode ht := absurd ht (h.not_faulted (by simp [hs]))
  halted ht := by
    obtain rfl := h.eq_hlt_of_halted hs ht
    rw [h.pc_of_not_setsPc (by simp)]
    omega

end Completed

/-- Fault entry keeps the invariant where it names a cause, and records no opcode just where none could be fetched. -/
theorem raise_inv {cause : FaultCause} {op : Option Byte} {s : State} (hinv : s.Inv) (hcause : cause ≠ .none)
    (hop : op = none ↔ s.pc = 256) : (raise cause op s).Inv where
  mem := hinv.mem
  pc := hinv.pc
  sp := hinv.sp
  fl := hinv.fl
  faultPc := hinv.pc
  noFault h := absurd rfl h
  faulted _ := ⟨hcause, rfl⟩
  faultOpcode _ := hop
  halted h := by simp at h

theorem step_inv {s t : State} (hinv : s.Inv) (h : step s = .next t) : t.Inv := by
  obtain ⟨hs, ⟨i, hf, he⟩ | ⟨e, hf, rfl⟩⟩ := step_next_cases h
  · obtain ⟨hfit, hpc, -⟩ := fetchDecode_ok hf
    rcases exec_completes_or_raises he with hc | ⟨cause, hcause, rfl⟩
    · exact hc.inv hinv hs hfit
    · exact raise_inv hinv hcause (by simp; omega)
  · obtain ⟨cause, op, hcause, hop, hraise⟩ := fetchFault_raises_opcode e s
    have hpast := fetchDecode_error hf
    have := hinv.pc
    rw [hraise]
    exact raise_inv hinv hcause (by rw [hop, hpast]; omega)

/-- Settles O50: a completed instruction and fault entry each keep the invariant. -/
theorem stepKeepsTheInvariant : Obligations.StepKeepsTheInvariant := fun _ _ => step_inv

/-! ### Frames of every instruction -/

section Frames

variable {i : Instr} {s t : State}

/-- An instruction enters a fault, or changes only the parts its rule names. -/
theorem exec_frame_cases (h : exec i s = .next t) :
    (∃ cause, FaultsWith cause (some (opcode i)) s t) ∨ KeepsOutside (writtenParts i s) s t := by
  rcases exec_completes_or_raises h with hc | ⟨cause, -, rfl⟩
  · exact .inr hc.keepsOutside
  · exact .inl ⟨cause, raise_faultsWith _ _ _⟩

/-- Completed or faulted, an instruction changes at most the parts its rule names and those of fault entry. -/
theorem exec_keepsOutside (h : exec i s = .next t) : KeepsOutside (.status :: .fault :: writtenParts i s) s t := by
  rcases exec_frame_cases h with ⟨cause, hf⟩ | hk
  · exact hf.rest.mono (by simp)
  · exact hk.mono (by simp)

/-- A step either runs the fetched instruction or is fault entry, so what both leave alone every step leaves alone. -/
theorem step_exec_or_keepsOutside (h : step s = .next t) :
    (∃ i, fetchDecode s = .ok i ∧ exec i s = .next t) ∨ KeepsOutside [.status, .fault] s t := by
  obtain ⟨-, ⟨i, hf, he⟩ | ⟨e, -, rfl⟩⟩ := step_next_cases h
  · exact .inl ⟨i, hf, he⟩
  · obtain ⟨cause, op, -, hraise⟩ := fetchFault_raises e s
    exact .inr (hraise ▸ (raise_faultsWith cause op s).rest)

theorem sp_notMem_writtenParts (hi : ∀ a, i ≠ .push a ∧ i ≠ .pop a ∧ i ≠ .call a) (hret : i ≠ .ret) :
    .sp ∉ writtenParts i s := by
  cases i <;> simp_all [writtenParts]

theorem fl_notMem_writtenParts (hi : ∀ a b, i ≠ .cmp a b) : .fl ∉ writtenParts i s := by
  cases i <;> simp_all [writtenParts]

theorem cell_notMem_writtenParts (hi : ∀ a, i ≠ .push a ∧ i ≠ .call a) (addr : Byte) :
    .cell addr ∉ writtenParts i s := by
  cases i <;> simp_all [writtenParts]

theorem exec_sp_eq (hi : ∀ a, i ≠ .push a ∧ i ≠ .pop a ∧ i ≠ .call a) (hret : i ≠ .ret) (h : exec i s = .next t) :
    t.sp = s.sp :=
  (exec_keepsOutside h).sp (by simp [sp_notMem_writtenParts hi hret])

theorem exec_fl_eq (hi : ∀ a b, i ≠ .cmp a b) (h : exec i s = .next t) : t.fl = s.fl :=
  (exec_keepsOutside h).fl (by simp [fl_notMem_writtenParts hi])

/-- An instruction leaves the output channel, or is a PRN that appends its register's byte (10_state R36). -/
theorem exec_out_cases (h : exec i s = .next t) :
    t.out = s.out ∨ ∃ (a : Byte) (r : Fin 8), i = .prn a ∧ a.toNat = r ∧ t.out = s.out ++ [s.reg r] := by
  rcases exec_completes_or_raises h with hc | ⟨cause, -, rfl⟩
  · cases hc with
    | prn ha => exact .inr ⟨_, _, rfl, ha, rfl⟩
    | _ => exact .inl rfl
  · exact .inl rfl

end Frames

/-- Settles O13: only HLT ends HALTED, and the instruction run is the one whose opcode stands at `pc`. -/
theorem onlyHltHalts : Obligations.OnlyHltHalts := by
  intro s t hs h ht
  obtain ⟨-, ⟨i, hf, he⟩ | ⟨e, -, rfl⟩⟩ := step_next_cases h
  · obtain ⟨-, hpc, hop⟩ := fetchDecode_ok hf
    rcases exec_completes_or_raises he with hc | ⟨cause, -, rfl⟩
    · obtain rfl := hc.eq_hlt_of_halted hs ht
      exact ⟨hpc, hop⟩
    · simp at ht
  · obtain ⟨cause, op, -, hraise⟩ := fetchFault_raises e s
    simp [hraise] at ht

/-- CALL's target (42_handlers R125): the register the mode selects, its index read as the push leaves memory (D2). -/
theorem Completes.call_pc {a : Byte} {s t : State} (h : Completes (.call a) s t) :
    ∃ r : Fin 8, t.pc = (s.reg r).toNat ∧ (s.callTargetMode = .direct → a.toNat = r) ∧
      (s.callTargetMode = .referenceIndirect → (t.memRead a).toNat = r) := by
  cases h with
  | @call _ _ r hsp hpc hdirect hindirect =>
    have hread : ((s.pushByte s.returnByte).setPc (s.reg r).toNat).memRead a = s.calleeIndex a :=
      s.memRead_pushByte s.returnByte a
    exact ⟨r, rfl, hdirect, fun hm => hread ▸ hindirect hm⟩

theorem Completes.ret_pc {s t : State} (h : Completes .ret s t) : t.pc = (s.memRead s.sp).toNat := by
  cases h; rfl

/-- Settles O15: a completed instruction moves `pc` as its rule says, and fault entry leaves it. -/
theorem pcChangesByInstruction : Obligations.PcChangesByInstruction := by
  intro i s t h
  rcases exec_completes_or_raises h with hc | ⟨cause, -, rfl⟩
  · refine ⟨fun ht hs => absurd ht (hc.not_faulted hs), fun _ => ⟨hc.pc_of_not_setsPc, ?_, ?_, ?_, ?_, ?_⟩⟩
    · rintro rfl
      simpa using hc.pc_of_not_setsPc (by simp)
    · rintro a (rfl | rfl | rfl) <;> simpa using hc.pc_of_not_setsPc (by simp)
    · rintro a b (rfl | rfl | rfl | rfl | rfl) <;> simpa using hc.pc_of_not_setsPc (by simp)
    · rintro a rfl
      exact hc.call_pc
    · rintro rfl
      exact hc.ret_pc
  · exact ⟨fun _ _ => rfl, fun ht => absurd rfl ht⟩

/-- Settles O33: only PUSH and CALL write a cell. -/
theorem frameOfFormsThatStoreNothing : Obligations.FrameOfFormsThatStoreNothing := fun _ _ _ hi h =>
  ⟨fun addr => (exec_keepsOutside h).cells addr (by simp [cell_notMem_writtenParts hi]), exec_frame_cases h⟩

/-- Settles O38: PRN appends, every other instruction and fault entry keep the channel. -/
theorem outputIsAppendOnly : Obligations.OutputIsAppendOnly := by
  refine ⟨fun _ => rfl, fun _ _ _ => exec_out_cases, fun s t h => ?_⟩
  rcases step_exec_or_keepsOutside h with ⟨i, -, he⟩ | hk
  · exact (exec_out_cases he).imp_right fun ⟨_, r, _, _, hout⟩ => ⟨s.reg r, hout⟩
  · exact .inl (hk.out (by simp))

/-- Settles O39: the mode is in every frame. -/
theorem callTargetModeIsFixed : Obligations.CallTargetModeIsFixed := by
  intro s t h
  rcases step_exec_or_keepsOutside h with ⟨i, -, he⟩ | hk
  · exact (exec_keepsOutside he).mode
  · exact hk.mode

/-- Settles O43: the eight cells of the register file are distinct. -/
theorem registersAreDistinctCells : Obligations.RegistersAreDistinctCells := by
  intro s i j v
  refine ⟨?_, s.setReg_keepsOutside v (by simp)⟩
  split
  · next h => exact h ▸ s.reg_setReg_same i v
  · next h => exact s.reg_setReg_other v h

/-! ### R7 -/

/-- R7 is written by an instruction with destination 7 alone, and a stack instruction has one only where it is `POP R7`. -/
theorem r7_notMem_writtenParts {i : Instr} {s : State}
    (hi : (∃ a, i = .push a ∨ i = .call a ∨ (i = .pop a ∧ a ≠ 7)) ∨ i = .ret) : .reg 7 ∉ writtenParts i s := by
  rcases hi with ⟨a, rfl | rfl | ⟨rfl, ha⟩⟩ | rfl
  · simp [writtenParts]
  · simp [writtenParts]
  · have : a.toNat ≠ 7 := fun h => ha (BitVec.eq_of_toNat_eq h)
    simpa [writtenParts] using this
  · simp [writtenParts]

theorem State.resetWith_reg_7 (c : Config) : (State.resetWith c).reg 7 = 244 := by
  simp [State.reg, spInit]

/-- Settles O37: R7 is outside the frame of the stack instructions but `POP R7`, and SP outside that of LDI and the ALU. -/
theorem r7DoesNotFollowSp : Obligations.R7DoesNotFollowSp := by
  refine ⟨State.resetWith_reg_7, fun i s t h => ⟨fun hi => ?_, fun hi => ?_⟩⟩
  · exact (exec_keepsOutside h).regs 7 (by simp [r7_notMem_writtenParts hi])
  · obtain ⟨b, rfl | rfl | rfl | rfl⟩ := hi <;> exact exec_sp_eq (by simp) (by simp) h

/-! ### Noninterference

An instruction that neither reads nor writes a part does the same with another value there: each check line and each write
commutes with putting that value in. -/

section Commute

variable (g : State → State) {op : Byte} {s : State}

theorem check_comm {c : Prop} [Decidable c] {cause : FaultCause} {u u' : State}
    (hraise : ∀ k o, raise k o (g s) = g (raise k o s)) (hnext : u' = g u) :
    check c cause op (g s) u' = g (check c cause op s u) := by
  unfold check
  split
  · exact hnext
  · exact hraise _ _

theorem checkReg_comm {a : Byte} {f f' : Fin 8 → State} (hraise : ∀ k o, raise k o (g s) = g (raise k o s))
    (hnext : ∀ i, f' i = g (f i)) : checkReg op a (g s) f' = g (checkReg op a s f) := by
  unfold checkReg
  split
  · exact hnext _
  · exact hraise _ _

theorem execAlu_comm {o : AluOp} (hop : aluOp op = some o) (a b : Byte)
    (hraise : ∀ k o, raise k o (g s) = g (raise k o s))
    (hnext : ∀ r q, sequencer op (g s).pc (aluWrite o r q (g s)) = g (sequencer op s.pc (aluWrite o r q s))) :
    execAlu op a b (g s) = g (execAlu op a b s) := by
  unfold execAlu
  rw [hop]
  exact checkReg_comm g hraise fun r => checkReg_comm g hraise fun q => hnext r q

theorem next_comm {t u u' : State} (hcomm : u' = g u) (h : (.next u : Host.Outcome State Fault Refusal) = .next t) :
    (.next u' : Host.Outcome State Fault Refusal) = .next (g t) := by
  rw [hcomm, Host.Outcome.next.inj h]

end Commute

/-- An instruction that is no stack instruction does the same whatever SP is (10_state R30). -/
theorem exec_setSp {i : Instr} {s t : State} (hi : ∀ a, i ≠ .push a ∧ i ≠ .pop a ∧ i ≠ .call a) (hret : i ≠ .ret)
    (v : Byte) (h : exec i s = .next t) : exec i (s.setSp v) = .next (t.setSp v) := by
  have hraise : ∀ k o, raise k o (s.setSp v) = (raise k o s).setSp v := fun _ _ => rfl
  cases i with
  | hlt => exact next_comm (·.setSp v) rfl h
  | ldi a b | prn a => exact next_comm (·.setSp v) (checkReg_comm (·.setSp v) hraise fun _ => rfl) h
  | add a b => exact next_comm (·.setSp v) (execAlu_comm (·.setSp v) (o := .add) rfl a b hraise fun _ _ => rfl) h
  | sub a b => exact next_comm (·.setSp v) (execAlu_comm (·.setSp v) (o := .sub) rfl a b hraise fun _ _ => rfl) h
  | mul a b => exact next_comm (·.setSp v) (execAlu_comm (·.setSp v) (o := .mul) rfl a b hraise fun _ _ => rfl) h
  | cmp a b => exact next_comm (·.setSp v) (execAlu_comm (·.setSp v) (o := .cmp) rfl a b hraise fun _ _ => rfl) h
  | push a | pop a | call a => simp at hi
  | ret => exact absurd rfl hret

/-- Settles O36: SP is outside the frame of the other instructions, and no check or write of theirs reads it. -/
theorem onlyStackInstructionsUseSp : Obligations.OnlyStackInstructionsUseSp :=
  fun _ _ _ v hi hret h => ⟨exec_sp_eq hi hret h, exec_setSp hi hret v h⟩

theorem callDirect_setFl (a : Byte) (s : State) (v : Byte) : callDirect a (s.setFl v) = (callDirect a s).setFl v :=
  have hraise : ∀ k o, raise k o (s.setFl v) = (raise k o s).setFl v := fun _ _ => rfl
  checkReg_comm (·.setFl v) hraise fun _ => check_comm (·.setFl v) hraise (check_comm (·.setFl v) hraise rfl)

theorem callIndirect_setFl (a : Byte) (s : State) (v : Byte) : callIndirect a (s.setFl v) = (callIndirect a s).setFl v :=
  have hraise : ∀ k o, raise k o (s.setFl v) = (raise k o s).setFl v := fun _ _ => rfl
  check_comm (·.setFl v) hraise <| check_comm (·.setFl v) hraise <| checkReg_comm (·.setFl v) hraise fun _ => rfl

theorem execCall_setFl {a : Byte} {s t : State} (v : Byte) (h : execCall a s = .next t) :
    execCall a (s.setFl v) = .next (t.setFl v) := by
  refine next_comm (·.setFl v) ?_ h
  rw [State.setFl_callTargetMode]
  cases s.callTargetMode with
  | direct => exact callDirect_setFl a s v
  | referenceIndirect => exact callIndirect_setFl a s v

/-- An instruction other than CMP does the same whatever FL is, and carries it along (10_state R32). -/
theorem exec_setFl {i : Instr} {s t : State} (hi : ∀ a b, i ≠ .cmp a b) (v : Byte) (h : exec i s = .next t) :
    exec i (s.setFl v) = .next (t.setFl v) := by
  have hraise : ∀ k o, raise k o (s.setFl v) = (raise k o s).setFl v := fun _ _ => rfl
  cases i with
  | hlt => exact next_comm (·.setFl v) rfl h
  | ldi a b | prn a => exact next_comm (·.setFl v) (checkReg_comm (·.setFl v) hraise fun _ => rfl) h
  | push a | pop a =>
    exact next_comm (·.setFl v) (checkReg_comm (·.setFl v) hraise fun _ => check_comm (·.setFl v) hraise rfl) h
  | call a => exact execCall_setFl v h
  | ret => exact next_comm (·.setFl v) (check_comm (·.setFl v) hraise rfl) h
  | add a b => exact next_comm (·.setFl v) (execAlu_comm (·.setFl v) (o := .add) rfl a b hraise fun _ _ => rfl) h
  | sub a b => exact next_comm (·.setFl v) (execAlu_comm (·.setFl v) (o := .sub) rfl a b hraise fun _ _ => rfl) h
  | mul a b => exact next_comm (·.setFl v) (execAlu_comm (·.setFl v) (o := .mul) rfl a b hraise fun _ _ => rfl) h
  | cmp a b => exact absurd rfl (hi a b)

theorem exec_cmp_of {a b : Byte} {r q : Fin 8} (ha : a.toNat = r) (hb : b.toNat = q) (s : State) :
    exec (.cmp a b) s = .next ((aluWrite .cmp r q s).setPc (s.pc + 3)) := by
  simp only [exec, execCmp, execAlu, checkReg_of ha, checkReg_of hb]
  rfl

/-- CMP overwrites whatever FL was, or faults and carries it along. -/
theorem exec_cmp_setFl {a b : Byte} {s t : State} (v : Byte) (h : exec (.cmp a b) s = .next t) :
    exec (.cmp a b) (s.setFl v) = .next (t.setFl v) ∨ exec (.cmp a b) (s.setFl v) = .next t := by
  rcases exec_cmp_cases a b s with ⟨r, q, ha, hb, -⟩ | ⟨hgt, he⟩
  · rw [exec_cmp_of ha hb] at h ⊢
    exact .inr h
  · rcases exec_cmp_cases a b (s.setFl v) with ⟨r, q, ha, hb, -⟩ | ⟨-, he'⟩
    · omega
    · obtain rfl := Host.Outcome.next.inj (he.symm.trans h)
      exact .inl he'

/-- Settles O35: FL is outside the frame of every instruction but CMP, no check or write reads it, and CMP overwrites it. -/
theorem flagsAreWrittenOnlyByCmpAndNeverRead : Obligations.FlagsAreWrittenOnlyByCmpAndNeverRead := by
  refine ⟨fun _ => rfl, fun i s t v h => ⟨fun hi => exec_fl_eq hi h, ?_⟩⟩
  by_cases hi : ∃ a b, i = .cmp a b
  · obtain ⟨a, b, rfl⟩ := hi
    exact (exec_cmp_setFl v h).imp_right fun he => ⟨⟨a, b, rfl⟩, he⟩
  · exact .inl (exec_setFl (fun a b e => hi ⟨a, b, e⟩) v h)

end Machine
end Sys2Proof

/-! ## Memory: one cell per write, the canonical form, the loaded image -/

namespace Sys2Proof.Machine

/-! ### Writing the same byte twice -/

theorem Memory.eraseAt_eraseAt (m : Memory) (k : Nat) : (m.eraseAt k).eraseAt k = m.eraseAt k := by
  simp [Memory.eraseAt]

theorem Memory.eraseAt_insertAt (m : Memory) (k : Nat) (v : Byte) : (m.insertAt k v).eraseAt k = m.eraseAt k := by
  induction m with
  | nil => simp [Memory.insertAt, Memory.eraseAt]
  | cons c m ih =>
    simp only [Memory.insertAt]
    split
    · simp only [Memory.eraseAt, List.filter_cons] at ih ⊢
      rw [ih]
    · simp [Memory.eraseAt]

theorem Memory.eraseAt_write (m : Memory) (addr v : Byte) : (m.write addr v).eraseAt addr.toNat = m.eraseAt addr.toNat := by
  unfold Memory.write
  split
  · exact Memory.eraseAt_eraseAt m _
  · rw [Memory.eraseAt_insertAt, Memory.eraseAt_eraseAt]

/-- The last write to an address decides the memory: a write looks at the memory without that address only. -/
theorem Memory.write_write (m : Memory) (addr v w : Byte) : (m.write addr v).write addr w = m.write addr w := by
  rw [Memory.write, Memory.eraseAt_write]
  rfl

@[simp] theorem State.memWrite_memWrite (s : State) (addr v w : Byte) :
    (s.memWrite addr v).memWrite addr w = s.memWrite addr w := by
  simp [State.memWrite, Memory.write_write]

/-- Settles O44: a second write erases exactly what the first one listed, whatever form the memory list has. -/
theorem memoryWriteChangesOneCell : Obligations.MemoryWriteChangesOneCell :=
  fun s addr v => ⟨s.memRead_memWrite_same addr v, s.memWrite_keepsOutside v (by simp), s.memWrite_memWrite addr v v⟩

/-! ### The canonical form: a memory is the list of its cells that do not read 0 -/

/-- A key that does not read 0 is listed, with the byte it reads. -/
theorem Memory.mem_of_readAt_ne_zero {m : Memory} {k : Nat} (h : m.readAt k ≠ 0) : (k, m.readAt k) ∈ m := by
  induction m with
  | nil => simp [Memory.readAt] at h
  | cons c m ih =>
    simp only [Memory.readAt] at h ⊢
    split
    · next hk => simp [← hk]
    · next hk => exact List.mem_cons_of_mem _ (ih (by simpa [hk] using h))

/-- Where no key is listed twice, a listed cell reads as its byte. -/
theorem Memory.readAt_of_mem {m : Memory} (hm : m.Pairwise fun c d => c.1 < d.1) {c : Host.Cell} (hc : c ∈ m) :
    m.readAt c.1 = c.2 := by
  induction m with
  | nil => simp at hc
  | cons d m ih =>
    obtain ⟨hd, hm⟩ := List.pairwise_cons.mp hm
    rcases List.mem_cons.mp hc with rfl | hc
    · simp [Memory.readAt]
    · simp [Memory.readAt, (hd c hc).ne, ih hm hc]

/-- A listed cell of a canonical memory is listed in every memory that reads the same. -/
theorem Memory.subset_of_read_eq {m n : Memory} (hm : m.wf) (h : ∀ addr, m.read addr = n.read addr) : m ⊆ n := by
  intro c hc
  obtain ⟨hlt, hne⟩ := hm.2 c hc
  have haddr : (BitVec.ofNat 8 c.1).toNat = c.1 := by simpa using hlt
  have hread : n.readAt c.1 = c.2 := by
    have := h (BitVec.ofNat 8 c.1)
    rwa [Memory.read, Memory.read, haddr, Memory.readAt_of_mem hm.1 hc, eq_comm] at this
  simpa [hread] using Memory.mem_of_readAt_ne_zero (m := n) (k := c.1) (by rwa [hread])

/-- Settles O45: canonical memories that read the same list the same cells, and a strictly rising list is determined by its
members. -/
theorem canonicalMemoriesWithEqualReadsAreEqual : Obligations.CanonicalMemoriesWithEqualReadsAreEqual := by
  intro m n hm hn h
  have : Std.Irrefl fun c d : Host.Cell => c.1 < d.1 := ⟨fun c => lt_irrefl c.1⟩
  have : Std.Antisymm fun c d : Host.Cell => c.1 < d.1 := ⟨fun c d hcd hdc => absurd hcd hdc.asymm⟩
  exact List.Subset.antisymm_of_pairwise hm.1 hn.1 (Memory.subset_of_read_eq hm h)
    (Memory.subset_of_read_eq hn fun addr => (h addr).symm)

/-! ### The loaded image -/

@[simp] theorem State.memRead_resetWith (c : Config) (addr : Byte) : (State.resetWith c).memRead addr = 0 := rfl

theorem loadImage_of_length_le {image : List Byte} (h : image.length ≤ 256) (s : State) :
    loadImage image s = .ok (s.storeBytes 0 image) := if_pos h

/-- Each cell after an image that fits is stored from address 0: the byte of the image, or what it held (70_reset R181). -/
theorem State.memRead_storeBytes_zero {image : List Byte} (h : image.length ≤ 256) (s : State) (addr : Byte) :
    (s.storeBytes 0 image).memRead addr = image[addr.toNat]?.getD (s.memRead addr) := by
  simpa using s.memRead_storeBytes image 0 addr (by simpa using h)

/-- Settles O47: the load stores the image over the zeros of reset. -/
theorem bootFillsMemoryWithTheImage : Obligations.BootFillsMemoryWithTheImage :=
  fun c _ h => ⟨_, loadImage_of_length_le h (State.resetWith c), State.memRead_storeBytes_zero h (State.resetWith c)⟩

end Sys2Proof.Machine

/-! ## Encoding: the decoder, the unsupported bytes, the assembler

`decode` and `encode` are inverse, with the tail handed back. An opcode byte outside the map ends the fetch in its fault.
Assembler text is made of words of letters and digits, which the trimming and splitting of `assemble` leave whole. -/

namespace Sys2Proof

/-! ### The decoder and the opcode fields -/

/-- An instruction's bytes decode to it, whatever follows them (30_encoding R60, R66). -/
theorem decode_encode_append (i : Instr) (rest : List Byte) : decode (encode i ++ rest) = .ok (i, rest) := by
  cases i <;> rfl

/-- Settles O1: `decode` inverts `encode` with the tail handed back, and answers nothing else. -/
theorem decodeAgreesWithEncode : Obligations.DecodeAgreesWithEncode := fun _ rest i =>
  ⟨eq_encode_append_of_decode, fun h => h ▸ decode_encode_append i rest⟩

/-- Settles O2: each word is the encoding of its instruction, with the tail after it. -/
theorem sampleWordsDecode : Obligations.SampleWordsDecode :=
  ⟨decode_encode_append .hlt [], decode_encode_append (.ldi 3 255) [], decode_encode_append (.push 2) [],
    decode_encode_append (.call 1) [9], decode_encode_append (.sub 2 3) [], decode_encode_append (.cmp 4 1) []⟩

theorem head?_encode (i : Instr) : (encode i).head? = some (opcode i) := by
  obtain ⟨operands, h⟩ := encode_eq_cons i
  rw [h, List.head?_cons]

theorem isAluOp_opcode_iff (i : Instr) :
    isAluOp (opcode i) = true ↔ ∃ a b, i = .add a b ∨ i = .sub a b ∨ i = .mul a b ∨ i = .cmp a b := by
  cases i <;> simp

theorem setsPc_opcode_iff (i : Instr) : setsPc (opcode i) = true ↔ i = .ret ∨ ∃ a, i = .call a := by
  cases i <;> simp

/-- Settles O3, field by field. -/
theorem opcodeFieldsAgree : Obligations.OpcodeFieldsAgree := fun i =>
  ⟨head?_encode i, encode_length i, isAluOp_opcode_iff i, setsPc_opcode_iff i⟩

namespace Machine

/-! ### Opcode bytes outside the map -/

/-- No operand is looked at (40_fetch R82, D11). -/
theorem decode_of_lookup_none {op : Byte} (h : lookup op = none) (tail : List Byte) :
    decode (op :: tail) = .error (.unsupported op) := by
  simp [decode, h]

theorem fetchDecode_of_lookup_none {s : State} (hpc : s.pc ≤ 255) {op : Byte}
    (hread : s.memRead (BitVec.ofNat 8 s.pc) = op) (h : lookup op = none) : fetchDecode s = .error (.unsupported op) := by
  obtain ⟨tail, hbytes⟩ := fetchBytes_head s hpc
  rw [fetchDecode, hbytes, hread, decode_of_lookup_none h]

theorem step_of_fetchDecode_error {s : State} {e : DecodeError} (hs : s.status = .running)
    (h : fetchDecode s = .error e) : step s = .next (fetchFault e s) := by
  rw [step, hs, h]

/-- The eleven opcode bytes as numbers (30_encoding R69). -/
theorem lookup_eq_none_of_toNat_notMem {op : Byte}
    (h : op.toNat ∉ [0x01, 0x82, 0x47, 0x45, 0x46, 0x50, 0x11, 0xA0, 0xA3, 0xA2, 0xA7]) : lookup op = none :=
  (lookup_eq_none_iff op).mpr fun hmem => h (List.mem_map_of_mem (f := BitVec.toNat) hmem)

/-- A duplicate-free list of numbers below `n` leaves out the others, so the two counts add up to `n`. -/
theorem length_filter_notMem_range {l : List Nat} {n : Nat} (hnodup : l.Nodup) (hlt : ∀ k ∈ l, k < n) :
    l.length + ((List.range n).filter fun k => decide (k ∉ l)).length = n := by
  have hperm : ((List.range n).filter fun k => decide (k ∈ l)).Perm l :=
    (List.perm_ext_iff_of_nodup (List.nodup_range.filter _) hnodup).mpr fun k => by
      simpa using hlt k
  have hsplit := List.length_eq_length_filter_add (l := List.range n) fun k => decide (k ∈ l)
  simpa [hperm.length_eq, eq_comm] using hsplit

/-- Settles O4: the fetch ends at the opcode byte, whatever is in memory after it. -/
theorem unsupportedOpcodeFaults : Obligations.UnsupportedOpcodeFaults := by
  have hcount := length_filter_notMem_range (n := 256)
    (l := [0x01, 0x82, 0x47, 0x45, 0x46, 0x50, 0x11, 0xA0, 0xA3, 0xA2, 0xA7]) (by decide) (by decide)
  refine ⟨Nat.add_left_cancel hcount,
    fun s op hs hpc hread hop => ⟨raise .unsupportedOperation (some op) s, ?_, raise_faultsWith _ _ s⟩⟩
  have hlookup : lookup op = none := lookup_eq_none_of_toNat_notMem hop
  exact step_of_fetchDecode_error hs (fetchDecode_of_lookup_none hpc hread hlookup)

/-! ### Words of assembler text -/

/-- A text of letters and digits, not empty: a mnemonic, a register or a number. -/
structure IsWord (text : List Char) : Prop where
  ne_nil : text ≠ []
  alphanum : ∀ c ∈ text, c.isAlphanum = true

theorem isBlank_of_isAlphanum {c : Char} (h : c.isAlphanum = true) : isBlank c = false := by
  by_contra hb
  have hc : (c = ' ' ∨ c = '\t') ∨ c = '\r' := by
    simpa only [isBlank, Bool.not_eq_false, Bool.or_eq_true, decide_eq_true_eq] using hb
  rcases hc with (rfl | rfl) | rfl <;> exact absurd h (by decide)

theorem IsWord.reverse {text : List Char} (h : IsWord text) : IsWord text.reverse :=
  ⟨by simpa using h.ne_nil, by simpa using h.alphanum⟩

theorem IsWord.comma_notMem {text : List Char} (h : IsWord text) : ',' ∉ text := fun hmem =>
  absurd (h.alphanum _ hmem) (by decide)

theorem IsWord.dropWhile_isBlank_append {word : List Char} (h : IsWord word) (rest : List Char) :
    (word ++ rest).dropWhile isBlank = word ++ rest := by
  obtain ⟨c, word, rfl⟩ := List.exists_cons_of_ne_nil h.ne_nil
  simp [isBlank_of_isAlphanum (h.alphanum c (by simp))]

theorem IsWord.takeWhile_not_isBlank {word : List Char} (h : IsWord word) (rest : List Char) :
    (word ++ ' ' :: rest).takeWhile (fun c => !isBlank c) = word := by
  rw [List.takeWhile_append_of_pos fun c hc => by simp [isBlank_of_isAlphanum (h.alphanum c hc)]]
  simp [isBlank]

/-! ### Trimming and splitting -/

theorem trim_eq_self_of_ends {text : List Char} (hstart : text.dropWhile isBlank = text)
    (hend : text.reverse.dropWhile isBlank = text.reverse) : trim text = text := by
  rw [trim, hstart, hend, List.reverse_reverse]

theorem IsWord.trim_eq_self {word : List Char} (h : IsWord word) : trim word = word :=
  trim_eq_self_of_ends (by simpa using h.dropWhile_isBlank_append [])
    (by simpa using h.reverse.dropWhile_isBlank_append [])

/-- Text that begins and ends with a word has no white space around it. -/
theorem trim_word_append_word {first last : List Char} (hfirst : IsWord first) (hlast : IsWord last) (middle : List Char) :
    trim (first ++ middle ++ last) = first ++ middle ++ last :=
  trim_eq_self_of_ends (by simpa using hfirst.dropWhile_isBlank_append (middle ++ last))
    (by simpa using hlast.reverse.dropWhile_isBlank_append (middle.reverse ++ first.reverse))

theorem trim_space_cons (text : List Char) : trim (' ' :: text) = trim text := rfl

theorem splitCommas_ne_nil (text : List Char) : splitCommas text ≠ [] := by
  cases text with
  | nil => simp [splitCommas]
  | cons c text =>
    simp only [splitCommas]
    split
    · split <;> simp
    · simp

theorem splitCommas_cons_of_ne {c : Char} (hc : c ≠ ',') {text part : List Char} {parts : List (List Char)}
    (h : splitCommas text = part :: parts) : splitCommas (c :: text) = (c :: part) :: parts := by
  simp [splitCommas, h, hc]

theorem splitCommas_comma_cons (text : List Char) : splitCommas (',' :: text) = [] :: splitCommas text := by
  obtain ⟨part, parts, h⟩ := List.exists_cons_of_ne_nil (splitCommas_ne_nil text)
  simp [splitCommas, h]

/-- A text without commas is one part, and goes whole before the first part of what follows it. -/
theorem splitCommas_append {text : List Char} (htext : ',' ∉ text) {rest part : List Char} {parts : List (List Char)}
    (h : splitCommas rest = part :: parts) : splitCommas (text ++ rest) = (text ++ part) :: parts := by
  induction text with
  | nil => exact h
  | cons c text ih =>
    obtain ⟨hc, htext⟩ : ',' ≠ c ∧ ',' ∉ text := by simpa using htext
    exact splitCommas_cons_of_ne hc.symm (ih htext)

theorem IsWord.splitCommas_eq {word : List Char} (h : IsWord word) : splitCommas word = [word] := by
  simpa using splitCommas_append h.comma_notMem (rest := []) rfl

theorem IsWord.splitCommas_append_comma {word : List Char} (h : IsWord word) (rest : List Char) :
    splitCommas (word ++ ',' :: rest) = word :: splitCommas rest := by
  simpa using splitCommas_append h.comma_notMem (splitCommas_comma_cons rest)

/-! ### Numbers and registers -/

theorem decimalDigit_mod (n : Nat) : decimalDigit (n % 10) = decimalDigit n := by
  simp [decimalDigit]

theorem isDigit_decimalDigit (n : Nat) : (decimalDigit n).isDigit = true := by
  have hall : ∀ d < 10, (decimalDigit d).isDigit = true := by decide
  exact decimalDigit_mod n ▸ hall (n % 10) (Nat.mod_lt n (by decide))

theorem digitValue_decimalDigit (n : Nat) : digitValue (decimalDigit n) = some (n % 10) := by
  have hall : ∀ d < 10, digitValue (decimalDigit d) = some d := by decide
  exact decimalDigit_mod n ▸ hall (n % 10) (Nat.mod_lt n (by decide))

theorem numeral_nil (base value : Nat) : numeral base value [] = some value := rfl

theorem numeral_decimalDigit_cons (value n : Nat) (rest : List Char) :
    numeral 10 value (decimalDigit n :: rest) = numeral 10 (value * 10 + n % 10) rest := by
  simp [numeral, digitValue_decimalDigit, Nat.mod_lt n]

/-- Decimal text has one, two or three digits, by the size of the byte. -/
theorem decimal_cases (v : Byte) :
    (v.toNat < 10 ∧ decimal v = [decimalDigit v.toNat]) ∨
    (v.toNat < 100 ∧ decimal v = [decimalDigit (v.toNat / 10), decimalDigit v.toNat]) ∨
    decimal v = [decimalDigit (v.toNat / 100), decimalDigit (v.toNat / 10), decimalDigit v.toNat] := by
  unfold decimal
  simp only
  split
  · next h => exact .inl ⟨h, rfl⟩
  · split
    · next h => exact .inr (.inl ⟨h, rfl⟩)
    · exact .inr (.inr rfl)

theorem decimal_ne_nil (v : Byte) : decimal v ≠ [] := by
  rcases decimal_cases v with ⟨-, h⟩ | ⟨-, h⟩ | h <;> simp [h]

theorem isDigit_of_mem_decimal {v : Byte} : ∀ c ∈ decimal v, c.isDigit = true := by
  rcases decimal_cases v with ⟨-, h⟩ | ⟨-, h⟩ | h <;> simp [h, isDigit_decimalDigit]

theorem decimal_isWord (v : Byte) : IsWord (decimal v) :=
  ⟨decimal_ne_nil v, fun c hc => by simp [Char.isAlphanum, isDigit_of_mem_decimal c hc]⟩

theorem registerText_isWord (a : Byte) : IsWord (registerText a) :=
  ⟨List.cons_ne_nil _ _, List.forall_mem_cons.mpr ⟨by decide, (decimal_isWord a).alphanum⟩⟩

/-- Decimal text writes the byte's value. -/
theorem numeral_decimal (v : Byte) : numeral 10 0 (decimal v) = some v.toNat := by
  have hv := v.isLt
  rcases decimal_cases v with ⟨hlt, h⟩ | ⟨hlt, h⟩ | h
  all_goals
    simp only [h, numeral_decimalDigit_cons, numeral_nil, Option.some.injEq]
    omega

/-- Text of digits only is read as decimal: it opens neither the hexadecimal nor the binary form. -/
theorem parseImmediate_of_isDigit {text : List Char} (h : ∀ c ∈ text, c.isDigit = true) :
    parseImmediate text = parseByte 10 text := by
  unfold parseImmediate
  split
  · exact absurd (h 'x' (by simp)) (by decide)
  · exact absurd (h 'b' (by simp)) (by decide)
  · rfl

theorem parseByte_decimal (v : Byte) : parseByte 10 (decimal v) = some v := by
  have hv : v.toNat ≤ 255 := by omega
  unfold parseByte
  split
  · next h => exact absurd h (decimal_ne_nil v)
  · simp [numeral_decimal, hv]

theorem parseImmediate_decimal (v : Byte) : parseImmediate (decimal v) = some v :=
  (parseImmediate_of_isDigit isDigit_of_mem_decimal).trans (parseByte_decimal v)

theorem parseRegister_registerText {a : Byte} (h : a.toNat ≤ 7) : parseRegister (registerText a) = some a := by
  have hall : ∀ n < 8, parseRegister (registerText (BitVec.ofNat 8 n)) = some (BitVec.ofNat 8 n) := by decide
  simpa using hall a.toNat (by omega)

/-! ### Statements -/

theorem assemble_word_append {mnemonic tail : List Char} (hm : IsWord mnemonic)
    (htrim : trim (mnemonic ++ ' ' :: tail) = mnemonic ++ ' ' :: tail) :
    assemble (mnemonic ++ ' ' :: tail) =
      instrOfParts mnemonic (if trim tail = [] then [] else (splitCommas (trim tail)).map trim) := by
  simp only [assemble, htrim, hm.takeWhile_not_isBlank, List.drop_left, trim_space_cons]

theorem assemble_one_operand {mnemonic a : List Char} (hm : IsWord mnemonic) (ha : IsWord a) :
    assemble (mnemonic ++ [' '] ++ a) = instrOfParts mnemonic [a] := by
  have htrim := trim_word_append_word hm ha [' ']
  rw [List.append_assoc, List.singleton_append] at htrim ⊢
  rw [assemble_word_append hm htrim, ha.trim_eq_self, if_neg ha.ne_nil, ha.splitCommas_eq, List.map_singleton,
    ha.trim_eq_self]

theorem assemble_two_operands {mnemonic a b : List Char} (hm : IsWord mnemonic) (ha : IsWord a) (hb : IsWord b) :
    assemble (mnemonic ++ [' '] ++ a ++ [',', ' '] ++ b) = instrOfParts mnemonic [a, b] := by
  have htext : mnemonic ++ [' '] ++ a ++ [',', ' '] ++ b = mnemonic ++ ' ' :: (a ++ [',', ' '] ++ b) := by simp
  have htrim : trim (mnemonic ++ ' ' :: (a ++ [',', ' '] ++ b)) = mnemonic ++ ' ' :: (a ++ [',', ' '] ++ b) := by
    simpa using trim_word_append_word hm hb ([' '] ++ a ++ [',', ' '])
  have hrest : splitCommas (' ' :: b) = [' ' :: b] := splitCommas_cons_of_ne (by decide) hb.splitCommas_eq
  have hsplit : splitCommas (a ++ [',', ' '] ++ b) = [a, ' ' :: b] := by
    simpa [hrest] using ha.splitCommas_append_comma (' ' :: b)
  rw [htext, assemble_word_append hm htrim, trim_word_append_word ha hb, if_neg (by simp), hsplit]
  simp [trim_space_cons, ha.trim_eq_self, hb.trim_eq_self]

section Forms
variable {mnemonic : List Char} {a b : Byte}

theorem assemble_register {make : Byte → Instr} (hm : IsWord mnemonic)
    (hparts : ∀ t, instrOfParts mnemonic [t] = (parseRegister t).map make) (ha : a.toNat ≤ 7) :
    assemble (mnemonic ++ [' '] ++ registerText a) = some (make a) := by
  rw [assemble_one_operand hm (registerText_isWord a), hparts, parseRegister_registerText ha, Option.map_some]

theorem assemble_registers {make : Byte → Byte → Instr} (hm : IsWord mnemonic)
    (hparts : ∀ t u, instrOfParts mnemonic [t, u] = registerPair make t u) (ha : a.toNat ≤ 7) (hb : b.toNat ≤ 7) :
    assemble (mnemonic ++ [' '] ++ registerText a ++ [',', ' '] ++ registerText b) = some (make a b) := by
  rw [assemble_two_operands hm (registerText_isWord a) (registerText_isWord b), hparts, registerPair,
    parseRegister_registerText ha, parseRegister_registerText hb]

theorem assemble_ldi (ha : a.toNat ≤ 7) :
    assemble (['L', 'D', 'I'] ++ [' '] ++ registerText a ++ [',', ' '] ++ decimal b) = some (.ldi a b) := by
  rw [assemble_two_operands ⟨by simp, by simp⟩ (registerText_isWord a) (decimal_isWord b), instrOfParts,
    parseRegister_registerText ha, parseImmediate_decimal]

end Forms

/-- Settles O5, by the form of the statement: its words come apart again, and each reads as the operand it writes. -/
theorem assemblerReadsWhatItWrites : Obligations.AssemblerReadsWhatItWrites := by
  intro i h
  have hreg : ∀ a ∈ i.registerOperands, a.toNat ≤ 7 := by simpa [Instr.wellFormed] using h
  cases i with
  | hlt => rfl
  | ldi a b => exact assemble_ldi (hreg a (.head _))
  | prn a => exact assemble_register (mnemonic := ['P', 'R', 'N']) ⟨by simp, by simp⟩ (fun _ => rfl) (hreg a (.head _))
  | push a => exact assemble_register (mnemonic := ['P', 'U', 'S', 'H']) ⟨by simp, by simp⟩ (fun _ => rfl) (hreg a (.head _))
  | pop a => exact assemble_register (mnemonic := ['P', 'O', 'P']) ⟨by simp, by simp⟩ (fun _ => rfl) (hreg a (.head _))
  | call a => exact assemble_register (mnemonic := ['C', 'A', 'L', 'L']) ⟨by simp, by simp⟩ (fun _ => rfl) (hreg a (.head _))
  | ret => rfl
  | add a b =>
    exact assemble_registers (mnemonic := ['A', 'D', 'D']) ⟨by simp, by simp⟩ (fun _ _ => rfl) (hreg a (.head _))
      (hreg b (.tail _ (.head _)))
  | sub a b =>
    exact assemble_registers (mnemonic := ['S', 'U', 'B']) ⟨by simp, by simp⟩ (fun _ _ => rfl) (hreg a (.head _))
      (hreg b (.tail _ (.head _)))
  | mul a b =>
    exact assemble_registers (mnemonic := ['M', 'U', 'L']) ⟨by simp, by simp⟩ (fun _ _ => rfl) (hreg a (.head _))
      (hreg b (.tail _ (.head _)))
  | cmp a b =>
    exact assemble_registers (mnemonic := ['C', 'M', 'P']) ⟨by simp, by simp⟩ (fun _ _ => rfl) (hreg a (.head _))
      (hreg b (.tail _ (.head _)))

end Machine
end Sys2Proof

/-! ## Fetch, decode, execute: which step a state has

A RUNNING core runs the instruction whose bytes stand at `pc`, or enters the fault of its fetch; a stopped core has no step.
The statements follow from what `fetchDecode` answers and from `step_cases`. -/

namespace Sys2Proof

/-! ### Decoder errors after an opcode byte -/

/-- After an opcode byte the decoder can only miss a row of the map or an operand byte (30_encoding R71, 40_fetch R83). -/
theorem decode_cons_error_cases {op : Byte} {tail : List Byte} {e : DecodeError} (h : decode (op :: tail) = .error e) :
    (lookup op = none ∧ e = .unsupported op) ∨ e = .operandMissing op := by
  cases hl : lookup op with
  | none => exact .inl ⟨rfl, by simpa [Machine.decode_of_lookup_none hl, eq_comm] using h⟩
  | some f =>
    cases f with
    | n0 j => simp [decode, hl] at h
    | n1 make =>
      cases tail with
      | nil => exact .inr (by simpa [decode, hl, eq_comm] using h)
      | cons a tail => simp [decode, hl] at h
    | n2 make =>
      match tail, h with
      | [], h => exact .inr (by simpa [decode, hl, eq_comm] using h)
      | [_], h => exact .inr (by simpa [decode, hl, eq_comm] using h)
      | _ :: _ :: _, h => simp [decode, hl] at h

theorem lookup_opcode_ne_none (i : Instr) : lookup (opcode i) ≠ none := by
  intro hl
  obtain ⟨operands, henc⟩ := encode_eq_cons i
  have hdecode := decode_encode_append i []
  rw [henc, List.cons_append, Machine.decode_of_lookup_none hl] at hdecode
  simp at hdecode

namespace Machine

/-! ### The instruction in memory -/

/-- Settles O6: the fetch answers the decoded instruction, and `step` calls its meaning. -/
theorem stepRunsDecodedInstruction : Obligations.StepRunsDecodedInstruction := by
  intro s i rest hs hdecode
  have hfetch : fetchDecode s = .ok i := by rw [fetchDecode, hdecode]
  rw [step, hs, hfetch]

/-- Cells from `pc` on that hold an instruction's bytes are the first bytes of the fetch, up to the last cell. -/
theorem encode_prefix_fetchBytes {s : State} {i : Instr} (hfit : s.pc + (encode i).length ≤ 256)
    (hcells : ∀ k, k < (encode i).length → (encode i)[k]? = some (s.memRead (BitVec.ofNat 8 (s.pc + k)))) :
    encode i <+: fetchBytes s := by
  rw [List.prefix_iff_getElem?]
  intro k hk
  have hmax := encode_length_le i
  rw [fetchBytes_getElem? s k (by omega) (by omega), ← hcells k hk, List.getElem?_eq_getElem hk]

/-- Settles O7: what the fetch reads starts with the instruction's bytes, and the decoder takes no more than these. -/
theorem stepExecutesInstructionInMemory : Obligations.StepExecutesInstructionInMemory := by
  intro s i hs hfit hcells
  obtain ⟨rest, hbytes⟩ := encode_prefix_fetchBytes hfit hcells
  exact stepRunsDecodedInstruction s i rest hs (hbytes ▸ decode_encode_append i rest)

/-! ### Fetches past the last cell -/

theorem fetchDecode_eq_error_iff (s : State) (e : DecodeError) :
    fetchDecode s = .error e ↔ decode (fetchBytes s) = .error e := by
  unfold fetchDecode
  cases decode (fetchBytes s) <;> simp

theorem fetchDecode_past {s : State} (h : 255 < s.pc) : fetchDecode s = .error .noOpcode := by
  rw [fetchDecode_eq_error_iff, decode_eq_noOpcode_iff, fetchBytes_past s h]

/-- An opcode of the map at `pc` whose operands do not fit in memory fails at an operand: a fetched instruction would fit. -/
theorem fetchDecode_operandMissing {s : State} {i : Instr} (hpc : s.pc ≤ 255)
    (hread : s.memRead (BitVec.ofNat 8 s.pc) = opcode i) (hpast : 255 < s.pc + numOperands (opcode i)) :
    fetchDecode s = .error (.operandMissing (opcode i)) := by
  cases hfetch : fetchDecode s with
  | ok j =>
    obtain ⟨hfit, -, hopcode⟩ := fetchDecode_ok hfetch
    rw [encode_length, ← hopcode, hread] at hfit
    omega
  | error e =>
    obtain ⟨tail, hbytes⟩ := fetchBytes_head s hpc
    rw [fetchDecode_eq_error_iff, hbytes, hread] at hfetch
    rcases decode_cons_error_cases hfetch with ⟨hl, -⟩ | rfl
    · exact absurd hl (lookup_opcode_ne_none i)
    · rfl

/-- Settles O8: there is no byte to read, and the record has no opcode. -/
theorem opcodeFetchPastMemoryFaults : Obligations.OpcodeFetchPastMemoryFaults := fun s hs hpast =>
  ⟨_, step_of_fetchDecode_error hs (fetchDecode_past hpast), raise_faultsWith _ _ s⟩

/-- Settles O9: the fetch fails at an operand, and its fault keeps the opcode already read. -/
theorem operandFetchPastMemoryFaults : Obligations.OperandFetchPastMemoryFaults := fun s _ hs hpc hread hpast =>
  ⟨_, step_of_fetchDecode_error hs (fetchDecode_operandMissing hpc hread hpast), raise_faultsWith _ _ s⟩

/-! ### RUNNING and stopped cores -/

theorem step_of_halted {s : State} (hs : s.status = .halted) : step s = .fault .coreHalted := by
  rw [step, hs]

theorem step_of_faulted {s : State} (hs : s.status = .faulted) : step s = .fault .coreFaulted := by
  rw [step, hs]

/-- Settles O10, by the two stopped statuses. -/
theorem stoppedCoreHasNoStep : Obligations.StoppedCoreHasNoStep := by
  intro s hs
  cases hstatus : s.status with
  | running => exact absurd hstatus hs
  | halted => simp [step_of_halted hstatus]
  | faulted => simp [step_of_faulted hstatus]

/-- Settles O11: every instruction answers a next state, and so does the fault of a failed fetch. -/
theorem runningCoreAlwaysSteps : Obligations.RunningCoreAlwaysSteps := by
  intro s hs
  rcases step_cases s with ⟨hhalted, -⟩ | ⟨hfaulted, -⟩ | ⟨-, i, -, hstep⟩ | ⟨-, e, -, hstep⟩
  · simp [hs] at hhalted
  · simp [hs] at hfaulted
  · exact hstep ▸ exec_next i s
  · exact ⟨_, hstep⟩

theorem run_succ_of_step_fault (M : Host.Core) {s : M.State} {r : M.Fault} (h : M.step s = .fault r) (k : Nat) :
    M.run (k + 1) s = .fault r := by
  rw [Host.Core.run, h]

/-- A run that starts HALTED ends at once (40_fetch R87, R90). -/
theorem run_of_halted {s : State} (hs : s.status = .halted) (k : Nat) :
    Sys2Proof.core.run (k + 1) s = .fault .coreHalted :=
  run_succ_of_step_fault Sys2Proof.core (step_of_halted hs) k

/-- HLT is one byte, so it runs at every address (40_fetch R83, D3). -/
theorem step_hlt {s : State} (hs : s.status = .running) (hpc : s.pc ≤ 255)
    (hread : s.memRead (BitVec.ofNat 8 s.pc) = opHLT) : step s = .next (s.halt.setPc (s.pc + 1)) := by
  have hcells : ∀ k, k < (encode .hlt).length → (encode .hlt)[k]? = some (s.memRead (BitVec.ofNat 8 (s.pc + k))) := by
    intro k hk
    obtain rfl : k = 0 := by simpa [encode] using hk
    simp [encode, hread]
  rw [stepExecutesInstructionInMemory s .hlt hs (Nat.succ_le_succ hpc) hcells, exec_hlt]

/-- Settles O12: the step ends in the state HLT completes with, and that state is HALTED. -/
theorem haltFinishesItsStep : Obligations.HaltFinishesItsStep := fun s hs hpc hread =>
  ⟨s.halt.setPc (s.pc + 1), step_hlt hs hpc hread, rfl, rfl, Completes.hlt.keepsOutside, run_of_halted rfl⟩

end Machine
end Sys2Proof

/-! ## The ALU

The four instructions are one meaning with the operation as a parameter (41_alu R100), so what completes, what faults and what
stays is said once over `AluOp`; each statement on ADD, SUB, MUL or CMP adds the value its operation writes. -/

namespace Sys2Proof.Machine

/-! ### Byte arithmetic -/

theorem byteOfInt_intOfByte (x : Byte) : byteOfInt (intOfByte x) = x := by
  simp [byteOfInt, intOfByte]

theorem byteOfInt_add (v w : Int) : byteOfInt (v + w) = byteOfInt v + byteOfInt w := BitVec.ofInt_add v w

theorem byteOfInt_mul (v w : Int) : byteOfInt (v * w) = byteOfInt v * byteOfInt w := BitVec.ofInt_mul v w

theorem byteOfInt_sub (v w : Int) : byteOfInt (v - w) = byteOfInt v - byteOfInt w := by
  rw [Int.sub_eq_add_neg, byteOfInt_add, BitVec.sub_eq_add_neg]
  exact congrArg _ BitVec.ofInt_neg

/-- Settles O23: reduction mod 256 carries sums, differences and products over, and leaves a byte as it is. -/
theorem aluArithmeticIsModulo256 : Obligations.AluArithmeticIsModulo256 := fun x y => by
  simp only [byteOfInt_add, byteOfInt_sub, byteOfInt_mul, byteOfInt_intOfByte, and_self]

theorem byteOfInt_add_toNat (x y : Byte) :
    (byteOfInt (intOfByte x + intOfByte y)).toNat = (x.toNat + y.toNat) % 256 := by
  unfold intOfByte
  exact_mod_cast byteOfInt_toNat (x.toNat + y.toNat)

theorem byteOfInt_mul_toNat (x y : Byte) :
    (byteOfInt (intOfByte x * intOfByte y)).toNat = x.toNat * y.toNat % 256 := by
  unfold intOfByte
  exact_mod_cast byteOfInt_toNat (x.toNat * y.toNat)

/-! ### The flags of a comparison -/

theorem flagL_compareFlags (x y : Byte) : flagL (compareFlags x y) = true ↔ x.toNat < y.toNat := by
  rcases flags_cases x y with ⟨h, hf⟩ | ⟨h, hf⟩ | ⟨rfl, hf⟩
  · simp [hf, h, flagL]
  · simp [hf, h.le, flagL]
  · simp [hf, flagL]

theorem flagG_compareFlags (x y : Byte) : flagG (compareFlags x y) = true ↔ y.toNat < x.toNat := by
  rcases flags_cases x y with ⟨h, hf⟩ | ⟨h, hf⟩ | ⟨rfl, hf⟩
  · simp [hf, h.le, flagG]
  · simp [hf, h, flagG]
  · simp [hf, flagG]

theorem flagE_compareFlags (x y : Byte) : flagE (compareFlags x y) = true ↔ x = y := by
  rcases flags_cases x y with ⟨h, hf⟩ | ⟨h, hf⟩ | ⟨rfl, hf⟩
  · have hne : x ≠ y := by rintro rfl; exact h.false
    simp [hf, hne, flagE]
  · have hne : x ≠ y := by rintro rfl; exact h.false
    simp [hf, hne, flagE]
  · simp [hf, flagE]

theorem compareFlags_toNat_lt (x y : Byte) : (compareFlags x y).toNat < 2 ^ 3 := by
  rcases flags_cases x y with ⟨-, hf⟩ | ⟨-, hf⟩ | ⟨-, hf⟩ <;> rw [hf] <;> decide

theorem getLsbD_compareFlags_of_ge (x y : Byte) {n : Nat} (hn : 3 ≤ n) : (compareFlags x y).getLsbD n = false :=
  Nat.testBit_eq_false_of_lt ((compareFlags_toNat_lt x y).trans_le (Nat.pow_le_pow_right (by decide) hn))

/-! ### `EXEC_ALU` by its operands and its opcode -/

theorem execAlu_of_gt {a b : Byte} (h : 7 < a.toNat ∨ 7 < b.toNat) (op : Byte) (s : State) :
    execAlu op a b s = raise .outOfBoundsAccess (some op) s := by
  unfold execAlu
  rcases checkReg_cases op a s _ with ⟨r, ha, hnext⟩ | ⟨-, hraise⟩
  · rw [hnext]
    exact checkReg_of_gt (by omega) op s _
  · exact hraise

theorem execAlu_of_aluOp {op : Byte} {o : AluOp} (hop : aluOp op = some o) {a b : Byte} {r q : Fin 8} (ha : a.toNat = r)
    (hb : b.toNat = q) (s : State) : execAlu op a b s = sequencer op s.pc (aluWrite o r q s) := by
  simp only [execAlu, checkReg_of ha, checkReg_of hb, hop]

theorem execAlu_of_aluOp_none {op : Byte} (hop : aluOp op = none) {a b : Byte} {r q : Fin 8} (ha : a.toNat = r)
    (hb : b.toNat = q) (s : State) : execAlu op a b s = raise .unsupportedOperation (some op) s := by
  simp only [execAlu, checkReg_of ha, checkReg_of hb, hop]

theorem aluOp_eq_none_iff (op : Byte) : aluOp op = none ↔ op ∉ [opADD, opSUB, opMUL, opCMP] := by
  simp [aluOp, ite_eq_iff]

/-- The four ALU opcode bytes as numbers (30_encoding R69). -/
theorem aluOp_eq_none_of_toNat_notMem {op : Byte} (h : op.toNat ∉ [0xA0, 0xA3, 0xA2, 0xA7]) : aluOp op = none :=
  (aluOp_eq_none_iff op).mpr fun hmem => h (List.mem_map_of_mem (f := BitVec.toNat) hmem)

/-- Settles O22: with both indices in 0..7 the opcode selects no operation, and a bad index faults under every opcode. -/
theorem aluRefusesOtherOpcodes : Obligations.AluRefusesOtherOpcodes := by
  intro op a b s hop
  refine ⟨fun ⟨ha, hb⟩ => ?_, fun h => ?_⟩
  · rw [execAlu_of_aluOp_none (aluOp_eq_none_of_toNat_notMem hop) (r := ⟨a.toNat, by omega⟩) (q := ⟨b.toNat, by omega⟩)
      rfl rfl]
    exact raise_faultsWith _ _ s
  · rw [execAlu_of_gt h]
    exact raise_faultsWith _ _ s

/-! ### The four instructions, by their operation -/

/-- The instruction that runs an ALU operation (41_alu R101 to R104). -/
def AluOp.instr : AluOp → Byte → Byte → Instr
  | .add => .add
  | .sub => .sub
  | .mul => .mul
  | .cmp => .cmp

/-- The part an ALU operation writes, given its first register (41_alu R107). -/
def AluOp.target : AluOp → Fin 8 → Part
  | .add, r => .reg r
  | .sub, r => .reg r
  | .mul, r => .reg r
  | .cmp, _ => .fl

section Instructions

variable {o : AluOp} {a b : Byte} {r q : Fin 8} {s t : State}

theorem AluOp.exists_instr_eq {i : Instr} (hi : i = .add a b ∨ i = .sub a b ∨ i = .mul a b ∨ i = .cmp a b) :
    ∃ o : AluOp, i = o.instr a b := by
  rcases hi with rfl | rfl | rfl | rfl
  · exact ⟨.add, rfl⟩
  · exact ⟨.sub, rfl⟩
  · exact ⟨.mul, rfl⟩
  · exact ⟨.cmp, rfl⟩

theorem AluOp.instr_eq_cmp_iff : o.instr a b = .cmp a b ↔ o = .cmp := by
  cases o <;> simp [AluOp.instr]

theorem AluOp.instr_not_stack (o : AluOp) (a b : Byte) :
    (∀ c, o.instr a b ≠ .push c ∧ o.instr a b ≠ .pop c ∧ o.instr a b ≠ .call c) ∧ o.instr a b ≠ .ret := by
  cases o <;> simp [AluOp.instr]

theorem AluOp.target_of_ne_cmp (ho : o ≠ .cmp) (r : Fin 8) : o.target r = .reg r := by
  cases o with
  | cmp => exact absurd rfl ho
  | _ => rfl

theorem AluOp.writtenParts_of_ne_cmp (ho : o ≠ .cmp) : writtenParts (o.instr a b) s = .pc :: registerPart a := by
  cases o with
  | cmp => exact absurd rfl ho
  | _ => rfl

theorem AluOp.aluOp_opcode (o : AluOp) (a b : Byte) : aluOp (opcode (o.instr a b)) = some o := by
  cases o <;> rfl

theorem AluOp.sequencer_opcode (o : AluOp) (a b : Byte) (pc0 : Nat) (s : State) :
    sequencer (opcode (o.instr a b)) pc0 s = s.setPc (pc0 + 3) := by
  cases o <;> simp [sequencer_eq, AluOp.instr]

theorem exec_alu (o : AluOp) (a b : Byte) (s : State) :
    exec (o.instr a b) s = .next (execAlu (opcode (o.instr a b)) a b s) := by
  cases o <;> rfl

theorem exec_alu_of (o : AluOp) (ha : a.toNat = r) (hb : b.toNat = q) (s : State) :
    exec (o.instr a b) s = .next ((aluWrite o r q s).setPc (s.pc + 3)) := by
  rw [exec_alu, execAlu_of_aluOp (o.aluOp_opcode a b) ha hb, o.sequencer_opcode]

theorem exec_alu_faults (o : AluOp) (h : 7 < a.toNat ∨ 7 < b.toNat) (s : State) :
    ∃ t, exec (o.instr a b) s = .next t ∧ FaultsWith .outOfBoundsAccess (some (opcode (o.instr a b))) s t :=
  ⟨_, by rw [exec_alu, execAlu_of_gt h], raise_faultsWith _ _ s⟩

/-- A completed ALU instruction changes its operation's target and `pc` (41_alu R107). -/
theorem aluWrite_setPc_keepsOutside (o : AluOp) (r q : Fin 8) (s : State) (n : Nat) :
    KeepsOutside [o.target r, .pc] s ((aluWrite o r q s).setPc n) := by
  have hwrite : KeepsOutside [o.target r, .pc] s (aluWrite o r q s) := by
    cases o with
    | cmp => exact s.setFl_keepsOutside _ (by simp [AluOp.target])
    | _ => exact s.setReg_keepsOutside _ (by simp [AluOp.target])
  exact hwrite.trans (State.setPc_keepsOutside _ n (by simp))

end Instructions

/-! ### The value each instruction writes -/

/-- Settles O18: the exact sum reduced mod 256 is what the register reads. -/
theorem addSemantics : Obligations.AddSemantics := by
  refine fun a b s => ⟨rfl, fun i j ha hb => ⟨_, exec_alu_of .add ha hb s, ?_, rfl, ?_⟩, fun h => exec_alu_faults .add h s⟩
  · exact (congrArg BitVec.toNat (s.reg_setReg_same i _)).trans (byteOfInt_add_toNat _ _)
  · exact aluWrite_setPc_keepsOutside .add i j s _

/-- Settles O19: the exact difference reduced mod 256 is what the register reads. -/
theorem subSemantics : Obligations.SubSemantics := by
  refine fun a b s => ⟨rfl, fun i j ha hb => ⟨_, exec_alu_of .sub ha hb s, ?_, rfl, ?_⟩, fun h => exec_alu_faults .sub h s⟩
  · exact (congrArg intOfByte (s.reg_setReg_same i _)).trans (byteOfInt_toNat _)
  · exact aluWrite_setPc_keepsOutside .sub i j s _

/-- Settles O20: the exact product reduced mod 256 is what the register reads. -/
theorem mulSemantics : Obligations.MulSemantics := by
  refine fun a b s => ⟨rfl, fun i j ha hb => ⟨_, exec_alu_of .mul ha hb s, ?_, rfl, ?_⟩, fun h => exec_alu_faults .mul h s⟩
  · exact (congrArg BitVec.toNat (s.reg_setReg_same i _)).trans (byteOfInt_mul_toNat _ _)
  · exact aluWrite_setPc_keepsOutside .mul i j s _

/-- Settles O21: FL is written whole with the comparison's flags, and each of its bits is known. -/
theorem cmpSemantics : Obligations.CmpSemantics := fun _ _ s =>
  ⟨rfl, fun i j ha hb => ⟨_, exec_alu_of .cmp ha hb s, flagL_compareFlags _ _, flagG_compareFlags _ _,
    flagE_compareFlags _ _, fun _ => getLsbD_compareFlags_of_ge _ _, rfl, aluWrite_setPc_keepsOutside .cmp i j s _⟩,
    fun h => exec_alu_faults .cmp h s⟩

/-! ### Noninterference and frame -/

/-- The state with another memory, SP and output channel. -/
def State.withMemSpOut (s : State) (m : Memory) (p : Byte) (out : List Byte) : State :=
  { s with mem := m, sp := p, out := out }

section Frame

variable {i : Instr} {o : AluOp} {a b : Byte} {s t : State}

/-- An ALU instruction does the same whatever memory, SP and the output are, and carries them along (41_alu R107). -/
theorem exec_alu_withMemSpOut (m : Memory) (p : Byte) (out : List Byte) (h : exec (o.instr a b) s = .next t) :
    exec (o.instr a b) (s.withMemSpOut m p out) = .next (t.withMemSpOut m p out) := by
  rw [exec_alu] at h ⊢
  refine next_comm (·.withMemSpOut m p out)
    (execAlu_comm (·.withMemSpOut m p out) (o.aluOp_opcode a b) a b (fun _ _ => rfl) fun r q => ?_) h
  rw [o.sequencer_opcode, o.sequencer_opcode]
  cases o <;> rfl

/-- Only PUSH and CALL touch the memory list (20_memory R48). -/
theorem exec_mem_eq (hi : ∀ c, i ≠ .push c ∧ i ≠ .call c) (h : exec i s = .next t) : t.mem = s.mem := by
  rcases exec_completes_or_raises h with hc | ⟨cause, -, rfl⟩
  · cases hc with
    | push | call => simp at hi
    | _ => rfl
  · rfl

theorem exec_alu_out_eq (h : exec (o.instr a b) s = .next t) : t.out = s.out := by
  rcases exec_out_cases h with hout | ⟨c, r, hprn, -⟩
  · exact hout
  · cases o <;> simp [AluOp.instr] at hprn

theorem exec_cmp_reg_eq (h : exec (.cmp a b) s = .next t) (r : Fin 8) : t.reg r = s.reg r :=
  (exec_keepsOutside h).regs r (by simp [writtenParts])

theorem exec_alu_reg_eq (ho : o ≠ .cmp) (h : exec (o.instr a b) s = .next t) {r : Fin 8} (hr : a.toNat ≠ r) :
    t.reg r = s.reg r :=
  (exec_keepsOutside h).regs r (by simpa [AluOp.writtenParts_of_ne_cmp ho] using hr)

theorem exec_alu_fl_eq (ho : o ≠ .cmp) (h : exec (o.instr a b) s = .next t) : t.fl = s.fl :=
  (exec_keepsOutside h).fl (by simp [AluOp.writtenParts_of_ne_cmp ho])

/-- With both indices in 0..7 an ALU instruction ends 3 addresses on, with its target written and the rest kept. -/
theorem exec_alu_frame {r q : Fin 8} (ha : a.toNat = r) (hb : b.toNat = q) (h : exec (o.instr a b) s = .next t) :
    t.pc = s.pc + 3 ∧ KeepsOutside [o.target r, .pc] s t := by
  obtain rfl := Host.Outcome.next.inj ((exec_alu_of o ha hb s).symm.trans h)
  exact ⟨rfl, aluWrite_setPc_keepsOutside o r q s _⟩

end Frame

/-- Settles O24: no check or write of the ALU involves memory, SP or the output, and its frame is the target and `pc`. -/
theorem aluTouchesRegistersAndFlagsOnly : Obligations.AluTouchesRegistersAndFlagsOnly := by
  intro i a b hi s t h
  have hpc : t.status ≠ .faulted → t.pc = s.pc + 3 := fun ht => by
    obtain ⟨-, -, -, hthree, -⟩ := (pcChangesByInstruction i s t h).2 ht
    exact hthree a b (.inr hi)
  obtain ⟨o, rfl⟩ := AluOp.exists_instr_eq hi
  obtain ⟨hstack, hret⟩ := o.instr_not_stack a b
  simp only [ne_eq, AluOp.instr_eq_cmp_iff]
  refine ⟨fun m p out => exec_alu_withMemSpOut m p out h, exec_mem_eq (fun c => ⟨(hstack c).1, (hstack c).2.2⟩) h,
    exec_sp_eq hstack hret h, exec_alu_out_eq h, ?_, fun ho => ⟨exec_alu_fl_eq ho h, fun _ => exec_alu_reg_eq ho h⟩, hpc,
    fun r q ha hb => ?_⟩
  · rintro rfl
    exact exec_cmp_reg_eq h
  · obtain ⟨hpc3, hframe⟩ := exec_alu_frame ha hb h
    refine ⟨hpc3, ?_, fun ho => o.target_of_ne_cmp ho r ▸ hframe⟩
    rintro rfl
    exact hframe

end Sys2Proof.Machine

/-! ## The named handlers

`Completes` says what an instruction does when its checks pass, and `Completes.exec_eq` that `exec` then answers it. Each
statement on one handler reads its values and its frame off `Completes`, and its faults off that handler's lemma in Laws/Exec. -/

namespace Sys2Proof.Machine

/-! ### The stack cell -/

section StackCell

variable (s : State)

@[simp] theorem State.pushAddr_add_one : s.pushAddr + 1 = s.sp := BitVec.sub_add_cancel s.sp 1

@[simp] theorem State.memRead_pushByte_pushAddr (v : Byte) : (s.pushByte v).memRead s.pushAddr = v := by
  simp [State.memRead_pushByte]

@[simp] theorem State.memRead_setPc (n : Nat) (addr : Byte) : (s.setPc n).memRead addr = s.memRead addr := rfl

@[simp] theorem State.top_pushByte (v : Byte) : (s.pushByte v).top = v := s.memRead_pushByte_pushAddr v

variable {s}

/-- A push on a stack within its bounds leaves one that can be popped (42_handlers R123, R124). -/
theorem State.pushAddr_toNat_le (hpos : 1 ≤ s.sp.toNat) (hle : s.sp.toNat ≤ 244) : s.pushAddr.toNat ≤ 243 := by
  have := State.pushAddr_toNat hpos
  omega

theorem State.dropTop_sp_toNat (h : s.sp.toNat ≤ 243) : s.dropTop.sp.toNat = s.sp.toNat + 1 := by
  rw [State.dropTop_sp]
  bv_omega

/-- A return address that passes D8's check is pushed without loss. -/
theorem State.returnByte_toNat (h : s.pc + 2 ≤ 255) : s.returnByte.toNat = s.pc + 2 :=
  (BitVec.toNat_ofNat _ 8).trans (Nat.mod_eq_of_lt (Nat.lt_succ_of_le h))

theorem State.calleeIndex_toNat (h : s.pc + 2 ≤ 255) (a : Byte) :
    (s.calleeIndex a).toNat = if a = s.pushAddr then s.pc + 2 else (s.memRead a).toNat := by
  rw [State.calleeIndex, apply_ite BitVec.toNat, State.returnByte_toNat h]

end StackCell

/-! ### From `Completes` to `exec` -/

section Completed

variable {i : Instr} {a : Byte} {r : Fin 8} {s t : State}

/-- Where an instruction's checks pass, `exec` answers what `Completes` says: the converse of `exec_completes_or_raises`. -/
theorem Completes.exec_eq (h : Completes i s t) : exec i s = .next t := by
  cases h with
  | hlt => exact exec_hlt s
  | ldi ha => simp only [exec, execLdi, checkReg_of ha, sequencer_ldi]
  | prn ha => simp only [exec, execPrn, checkReg_of ha, sequencer_prn]
  | push ha hsp => simp only [exec, execPush, checkReg_of ha, check_of hsp, sequencer_push]
  | pop ha hsp => simp only [exec, execPop, checkReg_of ha, check_of hsp, sequencer_pop]
  | call hsp hpc hdirect hindirect =>
    have hret : s.returnAddr ≤ 255 := hpc
    cases hm : s.callTargetMode with
    | direct =>
      simp only [exec, execCall, hm, callDirect, checkReg_of (hdirect hm), check_of hsp, check_of hret, sequencer_call]
    | referenceIndirect =>
      simp only [exec, execCall, hm, callIndirect, checkReg_of (hindirect hm), check_of hsp, check_of hret, sequencer_call]
  | ret hsp => simp only [exec, execRet, check_of hsp, sequencer_ret]
  | add ha hb => exact exec_alu_of .add ha hb s
  | sub ha hb => exact exec_alu_of .sub ha hb s
  | mul ha hb => exact exec_alu_of .mul ha hb s
  | cmp ha hb => exact exec_alu_of .cmp ha hb s

theorem registerPart_of (ha : a.toNat = r) : registerPart a = [.reg r] := by
  simp [registerPart, (regIndex_eq_some_iff a r).mpr ha]

theorem exec_faultsWith {cause : FaultCause} {op : Option Byte} (h : exec i s = .next (raise cause op s)) :
    ∃ t, exec i s = .next t ∧ FaultsWith cause op s t :=
  ⟨_, h, raise_faultsWith cause op s⟩

theorem Completes.call_direct (hm : s.callTargetMode = .direct) (ha : a.toNat = r) (hsp : 1 ≤ s.sp.toNat)
    (hpc : s.pc + 2 ≤ 255) : Completes (.call a) s ((s.pushByte s.returnByte).setPc (s.reg r).toNat) :=
  .call hsp hpc (fun _ => ha) (by simp [hm])

theorem Completes.call_indirect (hm : s.callTargetMode = .referenceIndirect) (ha : (s.calleeIndex a).toNat = r)
    (hsp : 1 ≤ s.sp.toNat) (hpc : s.pc + 2 ≤ 255) :
    Completes (.call a) s ((s.pushByte s.returnByte).setPc (s.reg r).toNat) :=
  .call hsp hpc (by simp [hm]) (fun _ => ha)

/-- CALL's push, the same in both modes (42_handlers R125): SP down by 1, the return address at the new SP. -/
theorem Completes.call_pushes (h : Completes (.call a) s t) :
    t.sp.toNat = s.sp.toNat - 1 ∧ t.sp = s.pushAddr ∧ (t.memRead s.pushAddr).toNat = s.pc + 2 := by
  cases h with
  | call hsp hpc => exact ⟨State.pushAddr_toNat hsp, rfl, by simp [State.returnByte_toNat hpc]⟩

end Completed

/-! ### Halt, load, print -/

/-- Settles O25: HLT has no check, so it always completes. -/
theorem hltSemantics : Obligations.HltSemantics := fun s =>
  ⟨rfl, _, exec_hlt s, rfl, rfl, Completes.hlt.keepsOutside⟩

/-- Settles O26, by the register check: the literal is what the register reads. -/
theorem ldiSemantics : Obligations.LdiSemantics := by
  refine fun a b s => ⟨rfl, fun i ha => ?_, fun hgt => ?_⟩
  · have hc : Completes (.ldi a b) s _ := .ldi ha
    exact ⟨_, hc.exec_eq, s.reg_setReg_same i b, rfl, hc.keepsOutside.mono (by simp [writtenParts, registerPart_of ha])⟩
  · rcases exec_ldi_cases a b s with ⟨i, ha, -⟩ | ⟨-, he⟩
    · omega
    · exact exec_faultsWith he

/-- Settles O27, by the register check. -/
theorem prnSemantics : Obligations.PrnSemantics := by
  refine fun a s => ⟨rfl, fun i ha => ?_, fun hgt => ?_⟩
  · have hc : Completes (.prn a) s _ := .prn ha
    exact ⟨_, hc.exec_eq, rfl, rfl, hc.keepsOutside⟩
  · rcases exec_prn_cases a s with ⟨i, ha, -⟩ | ⟨-, he⟩
    · omega
    · exact exec_faultsWith he

/-! ### Push and pop -/

/-- Settles O28: both checks passed, the push writes its cell; either one failed is the one fault. -/
theorem pushSemantics : Obligations.PushSemantics := by
  refine fun a s => ⟨rfl, fun i ha hsp => ?_, fun hbad => ?_⟩
  · have hc : Completes (.push a) s _ := .push ha hsp
    exact ⟨_, hc.exec_eq, State.pushAddr_toNat hsp, rfl, s.memRead_pushByte_pushAddr _, rfl, hc.keepsOutside⟩
  · rcases exec_push_cases a s with ⟨i, ha, hsp, -⟩ | ⟨-, he⟩
    · omega
    · exact exec_faultsWith he

/-- Settles O29: the index check comes before the stack check, so the two faults exclude each other. -/
theorem popSemantics : Obligations.PopSemantics := by
  refine fun a s => ⟨rfl, fun i ha hsp => ?_, fun hgt => ?_, fun hle hempty => ?_⟩
  · have hc : Completes (.pop a) s _ := .pop ha hsp
    exact ⟨_, hc.exec_eq, s.reg_setReg_same i s.top, State.dropTop_sp_toNat hsp, rfl,
      hc.keepsOutside.mono (by simp [writtenParts, registerPart_of ha])⟩
  · rcases exec_pop_cases a s with ⟨i, ha, -⟩ | ⟨-, he⟩ | ⟨hle, -⟩
    · omega
    · exact exec_faultsWith he
    · omega
  · rcases exec_pop_cases a s with ⟨i, -, hsp, -⟩ | ⟨hgt, -⟩ | ⟨-, -, he⟩
    · omega
    · omega
    · exact exec_faultsWith he

/-! ### Call and return -/

/-- Settles O30: in direct mode the operand is the index, and each of the three checks raises the same fault. -/
theorem callDirectSemantics : Obligations.CallDirectSemantics := by
  refine fun a s hm => ⟨rfl, fun i ha hsp hpc => ?_, fun hbad => ?_⟩
  · have hc := Completes.call_direct hm ha hsp hpc
    obtain ⟨hnat, hsp', hcell⟩ := hc.call_pushes
    exact ⟨_, hc.exec_eq, hnat, hsp', hcell, rfl, hc.keepsOutside⟩
  · rcases exec_call_cases a s with ⟨i, hsp, hpc, hdirect, -⟩ | ⟨-, he⟩
    · have := hdirect hm
      omega
    · exact exec_faultsWith he

/-- Settles O31: the index is the byte at `a` as the push leaves it, the return address where `a` is the pushed cell. -/
theorem callIndirectSemantics : Obligations.CallIndirectSemantics := by
  refine fun a s hm => ⟨fun i hsp hpc hi => ?_, fun hbad => ?_⟩
  · have hidx : (s.calleeIndex a).toNat = i := (State.calleeIndex_toNat hpc a).trans hi
    have hread : (s.pushByte s.returnByte).memRead a = s.calleeIndex a := s.memRead_pushByte _ a
    have hc := Completes.call_indirect hm hidx hsp hpc
    obtain ⟨hnat, hsp', hcell⟩ := hc.call_pushes
    exact ⟨_, hc.exec_eq, hnat, hsp', hcell, hread.trans (by rw [← hidx, BitVec.ofNat_toNat, BitVec.setWidth_eq]), rfl,
      hc.keepsOutside⟩
  · rcases exec_call_cases a s with ⟨i, hsp, hpc, -, hindirect, -⟩ | ⟨-, he⟩
    · have := (State.calleeIndex_toNat hpc a).symm.trans (hindirect hm)
      omega
    · exact exec_faultsWith he

/-- Settles O32, by the stack check. -/
theorem retSemantics : Obligations.RetSemantics := by
  refine fun s => ⟨rfl, fun hsp => ?_, fun hempty => ?_⟩
  · have hc : Completes .ret s _ := .ret hsp
    exact ⟨_, hc.exec_eq, hc.ret_pc, State.dropTop_sp_toNat hsp, hc.keepsOutside⟩
  · rcases exec_ret_cases s with ⟨hsp, -⟩ | ⟨-, he⟩
    · omega
    · exact exec_faultsWith he

/-- Settles O34: PUSH and CALL write the same parts, and fault entry writes no cell. -/
theorem frameOfFormsThatStore : Obligations.FrameOfFormsThatStore := by
  intro i a s t hi h
  have hparts : writtenParts i s = [.sp, .cell s.pushAddr, .pc] := by
    rcases hi with rfl | rfl <;> rfl
  exact ⟨fun addr hne => (exec_keepsOutside h).cells addr (by simpa [hparts] using hne), hparts ▸ exec_frame_cases h⟩

/-! ### Two and three instructions in a row -/

/-- Settles O40: POP reads the cell PUSH wrote, and SP goes up by what it went down. -/
theorem pushThenPopMovesTheValue : Obligations.PushThenPopMovesTheValue := by
  intro s a b i j ha hb hpos hle
  have ht : Completes (.push a) s ((s.pushByte (s.reg i)).setPc (s.pc + 2)) := .push ha hpos
  have hu := Completes.pop (s := (s.pushByte (s.reg i)).setPc (s.pc + 2)) hb (State.pushAddr_toNat_le hpos hle)
  refine ⟨_, _, ht.exec_eq, hu.exec_eq, ?_, s.pushAddr_add_one, s.memRead_pushByte_pushAddr _, fun r hr => ?_⟩
  · exact (State.reg_setReg_same _ j _).trans (s.top_pushByte _)
  · exact State.reg_setReg_other _ _ hr

/-- Settles O41: RET reads SP and the cell at SP alone, and CALL left the return address there. -/
theorem callThenRetReturns : Obligations.CallThenRetReturns := by
  intro s a i hm ha hpos hle hpc
  have hc := Completes.call_direct hm ha hpos (by omega)
  obtain ⟨-, hsp, hcell⟩ := hc.call_pushes
  refine ⟨_, hc.exec_eq, rfl, fun u husp hucell => ?_⟩
  have hu : Completes .ret u _ := .ret (by rw [husp, hsp]; exact State.pushAddr_toNat_le hpos hle)
  refine ⟨_, hu.exec_eq, ?_, ?_⟩
  · rw [hu.ret_pc, husp, hucell, hsp, hcell]
  · rw [State.setPc_sp, State.dropTop_sp, husp, hsp, State.pushAddr_add_one]

/-- PUSH then RET jumps to the register's value: RET's target is the cell PUSH wrote. -/
theorem exec_push_ret {a : Byte} {r : Fin 8} {s : State} (ha : a.toNat = r) (hpos : 1 ≤ s.sp.toNat) (hle : s.sp.toNat ≤ 244) :
    ∃ t u, exec (.push a) s = .next t ∧ exec .ret t = .next u ∧ u.pc = (s.reg r).toNat ∧ u.sp = s.sp := by
  have ht : Completes (.push a) s ((s.pushByte (s.reg r)).setPc (s.pc + 2)) := .push ha hpos
  have hu := Completes.ret (s := (s.pushByte (s.reg r)).setPc (s.pc + 2)) (State.pushAddr_toNat_le hpos hle)
  exact ⟨_, _, ht.exec_eq, hu.exec_eq, congrArg BitVec.toNat (s.top_pushByte _), s.pushAddr_add_one⟩

/-- Settles O42: LDI leaves SP and puts the target where PUSH then RET takes it from. -/
theorem loadPushReturnJumps : Obligations.LoadPushReturnJumps := by
  intro s k target hk hpos hle
  have hr : k.toNat = (⟨k.toNat, by omega⟩ : Fin 8) := rfl
  have hload := Completes.exec_eq (.ldi (s := s) (b := target) hr)
  obtain ⟨u, v, hu, hv, hpc, hsp⟩ := exec_push_ret (s := (s.setReg _ target).setPc (s.pc + 3)) hr hpos hle
  exact ⟨_, u, v, hload, hu, hv, hpc.trans (congrArg BitVec.toNat (s.reg_setReg_same _ target)), hsp⟩

end Sys2Proof.Machine

/-! ## Faults

A step ends FAULTED only by fault entry (60_exceptions R154), and an instruction completes exactly where no condition of the
fault table holds (60_exceptions R151). Both rest on `Completes`: a completed instruction does not end FAULTED. -/

namespace Sys2Proof.Machine

/-! ### Fault entry is precise -/

/-- The byte an opcode fetch reads at `pc`; NONE past the last cell (40_fetch R81). -/
def State.opcodeByte (s : State) : Option Byte :=
  if s.pc ≤ 255 then some (s.memRead (BitVec.ofNat 8 s.pc)) else none

theorem State.opcodeByte_of_le {s : State} (h : s.pc ≤ 255) :
    s.opcodeByte = some (s.memRead (BitVec.ofNat 8 s.pc)) := if_pos h

theorem State.opcodeByte_of_gt {s : State} (h : 255 < s.pc) : s.opcodeByte = none := if_neg (Nat.not_le.mpr h)

/-- A failed fetch records the byte it read as the opcode, whether it failed at that byte or at an operand after it. -/
theorem fetchFault_eq_raise_opcodeByte {s : State} {e : DecodeError} (h : fetchDecode s = .error e) :
    ∃ cause, cause ≠ .none ∧ fetchFault e s = raise cause s.opcodeByte s := by
  by_cases hpc : s.pc ≤ 255
  · rw [State.opcodeByte_of_le hpc]
    obtain ⟨tail, hbytes⟩ := fetchBytes_head s hpc
    rw [fetchDecode_eq_error_iff, hbytes] at h
    rcases decode_cons_error_cases h with ⟨-, rfl⟩ | rfl
    · exact ⟨.unsupportedOperation, by decide, rfl⟩
    · exact ⟨.outOfBoundsAccess, by decide, rfl⟩
  · have hpast : 255 < s.pc := Nat.not_le.mp hpc
    obtain rfl := (fetchDecode_error h).mpr hpast
    rw [State.opcodeByte_of_gt hpast]
    exact ⟨.outOfBoundsAccess, by decide, rfl⟩

/-- A step that ends FAULTED is fault entry from the state before it. -/
theorem step_faulted_eq_raise {s t : State} (h : step s = .next t) (ht : t.status = .faulted) :
    ∃ cause, cause ≠ .none ∧ t = raise cause s.opcodeByte s := by
  obtain ⟨hs, ⟨i, hf, he⟩ | ⟨e, hf, rfl⟩⟩ := step_next_cases h
  · obtain ⟨-, hpc, hop⟩ := fetchDecode_ok hf
    rcases exec_completes_or_raises he with hc | ⟨cause, hcause, rfl⟩
    · exact absurd ht (hc.not_faulted (by simp [hs]))
    · exact ⟨cause, hcause, by rw [State.opcodeByte_of_le hpc, hop]⟩
  · exact fetchFault_eq_raise_opcodeByte hf

/-- Settles O14: the step is `raise` with the byte at `pc`. -/
theorem faultsArePrecise : Obligations.FaultsArePrecise := by
  intro s t _ h ht
  obtain ⟨cause, hcause, rfl⟩ := step_faulted_eq_raise h ht
  exact ⟨raise_faultsWith _ _ s, hcause, rfl⟩

/-! ### The fault table -/

/-- When an instruction faults, per instruction: the negations of its check lines (41_alu R101 to R104, 42_handlers R120 to
R126). `faultCondition_iff` reads it as the fault table. -/
def FaultCondition (i : Instr) (s : State) : Prop :=
  match i with
  | .hlt => False
  | .ldi a _ | .prn a => 7 < a.toNat
  | .push a => 7 < a.toNat ∨ s.sp.toNat = 0
  | .pop a => 7 < a.toNat ∨ 244 ≤ s.sp.toNat
  | .call a => s.sp.toNat = 0 ∨ 255 < s.pc + 2 ∨ (s.callTargetMode = .direct ∧ 7 < a.toNat) ∨
      (s.callTargetMode = .referenceIndirect ∧ 7 < (s.calleeIndex a).toNat)
  | .ret => 244 ≤ s.sp.toNat
  | .add a b | .sub a b | .mul a b | .cmp a b => 7 < a.toNat ∨ 7 < b.toNat

section FaultTable

variable {i : Instr} {s t : State}

/-- The checks an instruction can fail are the rows of the fault table that apply to it (60_exceptions R151, D5 to D8). -/
theorem faultCondition_iff : FaultCondition i s ↔
    (∃ a ∈ i.registerOperands, 7 < a.toNat ∧ ¬ (i = .call a ∧ s.callTargetMode = .referenceIndirect)) ∨
    ((∃ a, i = .push a ∨ i = .call a) ∧ s.sp.toNat = 0) ∨
    ((∃ a, i = .call a) ∧ 255 < s.pc + 2) ∨
    (∃ a, i = .call a ∧ s.callTargetMode = .referenceIndirect ∧ 7 < (s.calleeIndex a).toNat) ∨
    (((∃ a, i = .pop a) ∨ i = .ret) ∧ 244 ≤ s.sp.toNat) := by
  cases i with
  | call a =>
    cases hm : s.callTargetMode with
    | direct => simp [FaultCondition, Instr.registerOperands, hm]; omega
    | referenceIndirect => simp [FaultCondition, Instr.registerOperands, hm]
  | _ => simp [FaultCondition, Instr.registerOperands]

/-- A completed instruction has passed its checks. -/
theorem Completes.not_faultCondition (h : Completes i s t) : ¬ FaultCondition i s := by
  cases h with
  | hlt => exact id
  | call hsp hpc hdirect hindirect =>
    rintro (hzero | hpast | ⟨hm, hgt⟩ | ⟨hm, hgt⟩)
    · omega
    · omega
    · have := hdirect hm
      omega
    · have := hindirect hm
      omega
  | _ => simp only [FaultCondition]; omega

theorem exists_toNat_eq_of_not_gt {a : Byte} (h : ¬ 7 < a.toNat) : ∃ r : Fin 8, a.toNat = r :=
  ⟨⟨a.toNat, by omega⟩, rfl⟩

/-- Where none of its checks fails, an instruction completes. -/
theorem exists_completes_of_not_faultCondition (h : ¬ FaultCondition i s) : ∃ t, Completes i s t := by
  cases i with
  | hlt => exact ⟨_, .hlt⟩
  | ldi a b =>
    obtain ⟨r, ha⟩ := exists_toNat_eq_of_not_gt h
    exact ⟨_, .ldi ha⟩
  | prn a =>
    obtain ⟨r, ha⟩ := exists_toNat_eq_of_not_gt h
    exact ⟨_, .prn ha⟩
  | push a =>
    obtain ⟨hle, hsp⟩ := not_or.mp h
    obtain ⟨r, ha⟩ := exists_toNat_eq_of_not_gt hle
    exact ⟨_, .push ha (by omega)⟩
  | pop a =>
    obtain ⟨hle, hsp⟩ := not_or.mp h
    obtain ⟨r, ha⟩ := exists_toNat_eq_of_not_gt hle
    exact ⟨_, .pop ha (by omega)⟩
  | call a =>
    simp only [FaultCondition, not_or, not_and] at h
    obtain ⟨hsp, hpc, hdirect, hindirect⟩ := h
    cases hm : s.callTargetMode with
    | direct =>
      obtain ⟨r, ha⟩ := exists_toNat_eq_of_not_gt (hdirect hm)
      exact ⟨_, .call_direct hm ha (by omega) (by omega)⟩
    | referenceIndirect =>
      obtain ⟨r, ha⟩ := exists_toNat_eq_of_not_gt (hindirect hm)
      exact ⟨_, .call_indirect hm ha (by omega) (by omega)⟩
  | ret =>
    have hsp : ¬ 244 ≤ s.sp.toNat := h
    exact ⟨_, .ret (by omega)⟩
  | add a b | sub a b | mul a b | cmp a b =>
    obtain ⟨hleA, hleB⟩ := not_or.mp h
    obtain ⟨r, ha⟩ := exists_toNat_eq_of_not_gt hleA
    obtain ⟨q, hb⟩ := exists_toNat_eq_of_not_gt hleB
    exact ⟨_, by constructor <;> assumption⟩

/-- Completing and failing a check exclude each other, and only fault entry ends FAULTED. -/
theorem exec_faulted_iff (hs : s.status ≠ .faulted) (h : exec i s = .next t) :
    t.status = .faulted ↔ FaultCondition i s := by
  rcases exec_completes_or_raises h with hc | ⟨cause, -, rfl⟩
  · exact iff_of_false (hc.not_faulted hs) hc.not_faultCondition
  · refine iff_of_true rfl (by_contra fun hpass => ?_)
    obtain ⟨u, hu⟩ := exists_completes_of_not_faultCondition hpass
    obtain rfl : u = raise cause (some (opcode i)) s := by simpa [hu.exec_eq] using h
    exact hu.not_faulted hs rfl

end FaultTable

/-- Settles O17: the failed checks of each instruction are the rows of the table. -/
theorem faultConditionsAreExactlyTheTable : Obligations.FaultConditionsAreExactlyTheTable := fun _ _ _ hs h =>
  (exec_faulted_iff hs h).trans faultCondition_iff

end Sys2Proof.Machine

/-! ## Reset, load and the fetched word

Reset fixes every field that the spec names. A load stores bytes and leaves the rest of the state, so a word stored at `pc`
is what the fetch reads there. -/

namespace Sys2Proof.Machine

/-! ### Reset -/

/-- R7 is the last register, and reset sets it to `SP_INIT` (10_state R24). -/
theorem State.reg_resetWith_seven (c : Config) : (State.resetWith c).reg 7 = spInit :=
  Vector.getElem_push_last

/-- R0 to R6 hold `REG_RESET` (10_state R24, D13). -/
theorem State.reg_resetWith_castSucc (c : Config) (i : Fin 7) : (State.resetWith c).reg i.castSucc = c.regReset[i] :=
  Vector.getElem_push_lt i.isLt

/-- Settles O46: the registers are `REG_RESET` with `SP_INIT` after it, and each other field is written out in
`State.resetWith`. -/
theorem resetValues : Obligations.ResetValues := fun c =>
  ⟨State.memRead_resetWith c, State.reg_resetWith_seven c, State.reg_resetWith_castSucc c, rfl, rfl, rfl, rfl, rfl, rfl, rfl⟩

/-- A reset core is RUNNING at address 0 with an empty stack, so the clauses on stopped cores hold with nothing to show. -/
theorem State.inv_resetWith (c : Config) : (State.resetWith c).Inv where
  mem := Memory.wf_nil
  pc := Nat.zero_le 256
  sp := (by decide : spInit.toNat ≤ 244)
  fl := .inl rfl
  faultPc := Nat.le_of_lt_succ c.faultPcReset.isLt
  noFault _ := rfl
  faulted h := nomatch h
  faultOpcode h := nomatch h
  halted h := nomatch h

/-- Settles O49: `State.reset` is the reset of one `Config`. -/
theorem resetMeetsTheInvariant : Obligations.ResetMeetsTheInvariant :=
  ⟨State.inv_resetWith, State.inv_resetWith Config.standard⟩

/-! ### The load -/

section Store

variable (s : State) (addr : Nat) (bytes : List Byte)

/-- With the old memory put back, a state after a store is the state before it. -/
theorem State.storeBytes_restore_mem : { s.storeBytes addr bytes with mem := s.mem } = s := by
  rw [State.storeBytes_eq]

@[simp] theorem State.storeBytes_pc : (s.storeBytes addr bytes).pc = s.pc := by
  rw [State.storeBytes_eq]

@[simp] theorem State.storeBytes_status : (s.storeBytes addr bytes).status = s.status := by
  rw [State.storeBytes_eq]

end Store

theorem loadImage_of_length_gt {image : List Byte} (h : 256 < image.length) (s : State) :
    loadImage image s = .error .imageTooLong := if_neg (Nat.not_le.mpr h)

/-- Settles O48: a load that fits is a store from address 0, and a longer image fails the length check. -/
theorem loadWritesOnlyTheImage : Obligations.LoadWritesOnlyTheImage := fun image s =>
  ⟨fun h => ⟨_, loadImage_of_length_le h s, s.storeBytes_restore_mem 0 image, State.memRead_storeBytes_zero h s⟩,
    fun h => loadImage_of_length_gt h s⟩

/-! ### The fetched word -/

theorem tableWordBytes_length (nbits w : Nat) : (tableWordBytes nbits w).length = maxLength := by
  simp [tableWordBytes]

theorem decodeTableWord_eq_some_iff (nbits w : Nat) (i : Instr) :
    decodeTableWord nbits w = some i ↔ ∃ rest, decode (tableWordBytes nbits w) = .ok (i, rest) := by
  unfold decodeTableWord
  cases decode (tableWordBytes nbits w) with
  | ok result => simp [Prod.ext_iff]
  | error e => simp

/-- The byte stored at position `k` of a run that fits below 256 is read back at its address. -/
theorem State.getElem?_eq_memRead_storeBytes (s : State) {addr k : Nat} {bytes : List Byte} (hk : k < bytes.length)
    (hfit : addr + bytes.length ≤ 256) :
    bytes[k]? = some ((s.storeBytes addr bytes).memRead (BitVec.ofNat 8 (addr + k))) := by
  have haddr : (BitVec.ofNat 8 (addr + k)).toNat = addr + k := Nat.mod_eq_of_lt (by omega)
  rw [State.memRead_storeBytes bytes s addr _ hfit, haddr, if_pos (by omega), Nat.add_sub_cancel_left,
    List.getElem?_eq_getElem hk, Option.getD_some]

/-- The fetch reads back exactly the bytes of a longest instruction stored at `pc` (40_fetch R89). -/
theorem fetchBytes_storeBytes_pc {s : State} {bytes : List Byte} (hlen : bytes.length = maxLength)
    (hpc : s.pc + maxLength ≤ 256) : fetchBytes (s.storeBytes s.pc bytes) = bytes := by
  have hfetched : (fetchBytes (s.storeBytes s.pc bytes)).length = bytes.length := by
    rw [fetchBytes_length, State.storeBytes_pc, hlen]
    omega
  refine List.ext_getElem? fun k => ?_
  by_cases hk : k < maxLength
  · rw [fetchBytes_getElem? _ k hk (by rw [State.storeBytes_pc]; omega), State.storeBytes_pc]
    exact (s.getElem?_eq_memRead_storeBytes (hlen ▸ hk) (hlen ▸ hpc)).symm
  · rw [List.getElem?_eq_none (by omega), List.getElem?_eq_none (by omega)]

/-- Settles O16: the fetch reads back the stored word, so the decoder answers the word's instruction. -/
theorem fetchWordRunsAsNextInstruction : Obligations.FetchWordRunsAsNextInstruction := by
  intro s nbits w i hs hpc hword
  obtain ⟨rest, hdecode⟩ := (decodeTableWord_eq_some_iff nbits w i).mp hword
  have hbytes : fetchBytes (s.withFetchWord nbits w) = tableWordBytes nbits w :=
    fetchBytes_storeBytes_pc (tableWordBytes_length nbits w) (Nat.add_le_add_right hpc maxLength)
  have hrunning : (s.withFetchWord nbits w).status = .running := (s.storeBytes_status _ _).trans hs
  exact stepRunsDecodedInstruction _ i rest hrunning (hbytes ▸ hdecode)

end Sys2Proof.Machine
